-- ==== Sys2Proof/Config.lean ====
section
/-! DEFINITION. Config.lean: the parameters of rule R10 that are not state of a run: which generation of
the core an instance is, and the constants the spec fixes. No parameter of this hardware is left open by
the spec, so there is no opaque constant here. -/

namespace Sys2Proof

/-- `VARIANT` (R2, R10): the generation of the core. The source describes no mixture (R2, U29). -/
inductive Variant where
  | simple
  | advanced
deriving DecidableEq, Repr

namespace Config

/-- `MODE_POSITION` (R10, R63). -/
def modePosition : Int := 0

/-- `MODE_IMMEDIATE` (R10, R63). -/
def modeImmediate : Int := 1

/-- `MODE_RELATIVE` (R10, R63): the spec marks this value as its own choice, D3 (log entry 8). -/
def modeRelative : Int := 2

/-- The radix of the opcode field: the two low decimal digits of the instruction word (R61, R62). -/
def opcodeModulus : Int := 100

end Config

end Sys2Proof
end

