-- ==== Sys2Proof/Word.lean ====
section
/-! DEFINITION. Word.lean: `Word` (R10), the type of a memory value, an address, `PC` and `RB`, is Lean's `Int`:
a signed integer. The advanced variant's words are all the integers; the simple variant's are those with
`Word.fits`. No operation of this hardware wraps, so no bit vector is wanted. -/

namespace Sys2Proof

/-- The least word of the simple variant (R10). -/
def Word.min32 : Int := -2147483648

/-- The greatest word of the simple variant (R10). -/
def Word.max32 : Int := 2147483647

/-- The value is in the 32-bit signed range (R10, R102). -/
def Word.fits (v : Int) : Bool := decide (Word.min32 ≤ v) && decide (v ≤ Word.max32)

end Sys2Proof
end

