-- ==== Sys2Proof/Machine/State.lean ====
section
/-! DEFINITION. Machine/State.lean: the state of one instance of the core (10_state.md) with the part of
its environment that a run reads (R35: the host's further actions, the values it will supply, the I/O
capability), as plain data, and its value after construction without a program. -/

namespace Sys2Proof.Machine

/-- The fault causes (R171). `None` is the absence of a cause. -/
inductive FaultCode where
  /-- A malformed program token, raised by the loader before any instance exists (R178). -/
  | parseError
  /-- A decoded opcode outside the fixed set (R68, R69). -/
  | invalidOpCode
  /-- A consulted mode digit outside the supported set (R70). -/
  | invalidAddressingMode
  /-- A destination parameter in Immediate mode (R72). -/
  | invalidWriteTarget
  /-- An address outside the allocation, simple variant only (R46). -/
  | outOfBounds
  /-- An operation invoked in a state that does not allow it (R159). -/
  | statePreconditionViolation
  /-- A sum or product outside the 32-bit range, simple variant only (R102). -/
  | arithmeticOverflow
deriving DecidableEq, Repr

/-- The number of a fault cause (R171; the spec's own numbering, D11). -/
def FaultCode.code : FaultCode → Nat
  | .parseError => 1
  | .invalidOpCode => 2
  | .invalidAddressingMode => 3
  | .invalidWriteTarget => 4
  | .outOfBounds => 5
  | .statePreconditionViolation => 6
  | .arithmeticOverflow => 7

/-- The number that stands for the content of `FAULT` (R171): 0 for `None`. -/
def FaultCode.register : Option FaultCode → Nat
  | none => 0
  | some c => c.code

/-- `STATE` (R24), with `OUT_VAL` as the payload of `WaitingToOutput` (R27). -/
inductive Status where
  | running
  | halted
  | waitingForInput
  | waitingToOutput (value : Int)
deriving DecidableEq, Repr

/-- The number of a state (R24; the spec's own numbering, D11). -/
def Status.code : Status → Nat
  | .running => 0
  | .halted => 1
  | .waitingForInput => 2
  | .waitingToOutput _ => 3

/-- What the last command has answered to the host (R150, R174, R175). -/
inductive Response where
  /-- No command has been issued since construction. -/
  | noCommand
  /-- The command has succeeded. -/
  | ok
  /-- `output()` has returned this value (R153). -/
  | value (v : Int)
  /-- The command has raised this error (R174, R175). -/
  | error (c : FaultCode)
  /-- The command has been issued and has not returned: the I/O capability blocks it (R184, R188). -/
  | blocked
deriving DecidableEq, Repr

/-- What the host may do to an instance by hand (R150, R158, R205). -/
inductive HostAction where
  /-- `step()` (R151); in the simple variant the single-instruction transition (R158). -/
  | step
  /-- `input(value)` (R152). -/
  | input (v : Int)
  /-- `output()` (R153). -/
  | output
  /-- `run(io)`, advanced variant (R154). -/
  | run
  /-- `execute(state, io)`, simple variant (R157). -/
  | execute
  /-- A write of one memory word before the first command (R205). -/
  | write (a v : Int)
deriving DecidableEq, Repr

/-- How `io.output` meets one call (R186, R187). -/
inductive Consumer where
  /-- It takes every value. -/
  | ready
  /-- It blocks the calling context (R186). -/
  | blocked
  /-- It is gone, and values are silently discarded (R186, R187). -/
  | gone
deriving DecidableEq, Repr

/-- One memory word at an address (R30, R41). The unit is the whole word: this hardware has no bytes
(log entry 1). -/
abbrev Cell := Int × Int

/-- Memory (R30), in the canonical form of `Memory.wf`: the words that differ from `Memory.unlisted`. -/
abbrev Memory := List Cell

/-- One instance with its environment. -/
structure State where
  /-- `VARIANT` (R10), fixed for an instance (log entry 3). -/
  variant : Variant
  /-- `N` (R10, R30): the size in words of the simple variant's dense memory. -/
  n : Nat
  /-- `PC` (R21). -/
  pc : Int
  /-- `RB` (R23); in the simple variant it is held at 0 and nothing reads it (R23). -/
  rb : Int
  /-- `STATE` with `OUT_VAL` (R24, R26, R27). -/
  status : Status
  /-- `PEND_DST` (R28). -/
  pendDst : Int
  /-- `FAULT` (R29). -/
  fault : Option FaultCode
  /-- `M` (R30). -/
  mem : Memory
  /-- The response to the last command (R150, R175; log entry 4). -/
  response : Response
  /-- What the host will do by hand, in order, before it leaves the instance to `run` or `execute`
  (R8, R35; log entry 5). -/
  host : List HostAction
  /-- The values `get_input` will supply, in order: the supplied-input sequence (R9, R35, R186). -/
  inputs : List Int
  /-- For the coming attempts at `get_input`, in order, whether the attempt blocks although a value is
  supplied (R186, R188); after the last of them a supplied value is returned at once (log entry 25). -/
  stalls : List Bool
  /-- How `io.output` meets the coming attempts at it, in order (R186; log entry 25). -/
  replies : List Consumer
  /-- How `io.output` meets every attempt after these (R186). -/
  consumer : Consumer
  /-- The values `io.output` has handed to its consumer, oldest first (R114, R186). -/
  outputs : List Int
  /-- The value that `run` has taken with `output()` and hands to `io.output`, while `io.output` has not
  returned (R154, R186; log entry 10). -/
  sending : Option Int
deriving DecidableEq, Repr

/-- Reset (R200) of the advanced variant before any program is loaded: `PC` 0, `RB` 0, `Running`,
`FAULT` `None`, no word of memory set. `PEND_DST` has no reset value in the spec and is 0 here (DESIGN
CHOICE, log entry 2, unsafe); the environment's fields are empty (DESIGN CHOICE, log entry 16, unsafe). -/
def State.reset : State where
  variant := .advanced
  n := 0
  pc := 0
  rb := 0
  status := .running
  pendDst := 0
  fault := none
  mem := []
  response := .noCommand
  host := []
  inputs := []
  stalls := []
  replies := []
  consumer := .ready
  outputs := []
  sending := none

/-- Why `Machine.step` has no next state. -/
inductive Fault where
  /-- Raised by `Machine.drive` alone, never by an instruction: the instance has recorded this fault,
  `run` or `execute` has returned it to its caller, and execution has stopped (R154, R170, R176).
  Safe: the machine stops where the hardware stops. -/
  | stopped (c : FaultCode)
deriving DecidableEq, Repr

/-- Why the model gives a run no meaning. -/
inductive Refusal where
  /-- Raised by `exec` alone, for an instruction without a meaning. Safe: nothing is claimed of it. -/
  | notModelled (mnemonic : String)
  /-- Raised by `execInp` in the simple variant: the environment has supplied a value outside the
  32-bit range, to which the spec gives no meaning (R111, U9). Safe. -/
  | inputNotWord
  /-- Raised by `hostWrite`: the host writes memory after the first command, to which the spec gives no
  meaning (R205, U16). Safe. -/
  | lateHostWrite
  /-- Raised by `hostWrite` in the simple variant: the address does not exist (R205). Safe. -/
  | hostWriteOutside
  /-- Raised by `hostWrite` in the simple variant: the value is not a word (R205). Safe. -/
  | hostWriteNotWord
  /-- Raised by `hostTurn`: `run` asked of a simple instance or `execute` of an advanced one, commands
  these variants do not have (R150). Safe. -/
  | commandNotInVariant
deriving DecidableEq, Repr

end Sys2Proof.Machine
end

