-- ==== Sys2Proof/Machine/Ops.lean ====
section
/-! DEFINITION. Machine/Ops.lean: the named operations over memory and registers, and the fault entry. -/

namespace Sys2Proof.Machine

/-- The outcome of one transition. -/
abbrev Result := Host.Outcome State Fault Refusal

/-! ## Memory -/

namespace Memory

/-- What an address with no entry reads as: "unset addresses read as zero" (R30, R42). In the simple
variant it is the content of the words of the allocation that hold zero. -/
def unlisted : Int := 0

/-- The content of an address (R42). -/
def get : Memory → Int → Int
  | [], _ => unlisted
  | (k, w) :: m, a => if k = a then w else get m a

/-- Memory without any entry for an address. -/
def erase : Memory → Int → Memory
  | [], _ => []
  | (k, w) :: m, a => if k = a then erase m a else (k, w) :: erase m a

/-- Memory with a new entry put before the first greater address. -/
def insert : Memory → Int → Int → Memory
  | [], a, v => [(a, v)]
  | (k, w) :: m, a, v => if a < k then (a, v) :: (k, w) :: m else (k, w) :: insert m a v

/-- Memory with an address set to a value (R43, R45). -/
def set (m : Memory) (a v : Int) : Memory :=
  if v = unlisted then erase m a else insert (erase m a) a v

/-- Memory with consecutive words set from an address on (R50, R202). -/
def setMany : Memory → Int → List Int → Memory
  | m, _, [] => m
  | m, a, v :: vs => setMany (set m a v) (a + 1) vs

/-- The canonical form: addresses strictly rising, no entry equal to what an unlisted address reads as. -/
abbrev wf (m : Memory) : Prop :=
  m.Pairwise (fun c d => c.1 < d.1) ∧ ∀ c ∈ m, c.2 ≠ unlisted

end Memory

/-! ## Register and memory access -/

namespace State

/-- The address exists in the instance's memory (R44, R46, R50). -/
def hasAddress (s : State) (a : Int) : Bool :=
  match s.variant with
  | .advanced => true
  | .simple => decide (0 ≤ a) && decide (a < (s.n : Int))

/-- The value is a word of the instance's variant (R10). -/
def isWord (s : State) (v : Int) : Bool :=
  match s.variant with
  | .advanced => true
  | .simple => Word.fits v

def setPc (s : State) (v : Int) : State := { s with pc := v }
def setRb (s : State) (v : Int) : State := { s with rb := v }
def setStatus (s : State) (v : Status) : State := { s with status := v }
def setPendDst (s : State) (v : Int) : State := { s with pendDst := v }
def setFault (s : State) (v : Option FaultCode) : State := { s with fault := v }
def setMem (s : State) (v : Memory) : State := { s with mem := v }
def setResponse (s : State) (v : Response) : State := { s with response := v }
def setHost (s : State) (v : List HostAction) : State := { s with host := v }
def setInputs (s : State) (v : List Int) : State := { s with inputs := v }
def setStalls (s : State) (v : List Bool) : State := { s with stalls := v }
def setReplies (s : State) (v : List Consumer) : State := { s with replies := v }
def setOutputs (s : State) (v : List Int) : State := { s with outputs := v }
def setSending (s : State) (v : Option Int) : State := { s with sending := v }

/-- `MemRead(a, 1)` (R42, R44). -/
def memRead (s : State) (a : Int) : Except FaultCode Int :=
  if s.hasAddress a then .ok (s.mem.get a) else .error .outOfBounds

/-- `MemWrite(a, 1, v)` (R43, R45). -/
def memWrite (s : State) (a v : Int) : Except FaultCode State :=
  if s.hasAddress a then .ok (s.setMem (s.mem.set a v)) else .error .outOfBounds

/-- `PC <- PC + width` (R22, R91). -/
def advance (s : State) (width : Int) : State := s.setPc (s.pc + width)

/-- The words at `a`, `a + 1`, ..., at most `k` of them, up to the first address that does not exist
(R84). -/
def readWords (s : State) (a : Int) : Nat → List Int
  | 0 => []
  | k + 1 =>
    match s.memRead a with
    | .ok w => w :: readWords s (a + 1) k
    | .error _ => []

/-- What the host reads of an instance's memory, at any time (R34, R205): a query, no transition. -/
def hostRead (s : State) (a : Int) : Option Int :=
  if s.hasAddress a then some (s.mem.get a) else none

/-- The instance will execute nothing more: it has halted or it has faulted (R146, R176). -/
def ended (s : State) : Bool := s.fault.isSome || decide (s.status = .halted)

/-! ## The I/O capability -/

/-- What an attempt at `get_input` finds (R186): the value it returns and those left after it, or nothing where
it blocks. -/
def supply (s : State) : Option (Int × List Int) :=
  if s.stalls.headD false then none
  else
    match s.inputs with
    | [] => none
    | v :: vs => some (v, vs)

/-- An attempt at `get_input` has been made. -/
def polled (s : State) : State := s.setStalls s.stalls.tail

/-- How `io.output` meets an attempt (R186). -/
def reply (s : State) : Consumer := s.replies.headD s.consumer

/-- An attempt at `io.output` has been made. -/
def offered (s : State) : State := s.setReplies s.replies.tail

/-- An attempt at `io.output` that returns: the value goes to the consumer, or is discarded when the consumer
is gone (R187). -/
def send (s : State) (v : Int) : State :=
  match s.reply with
  | .gone => s.offered
  | .ready | .blocked => s.offered.setOutputs (s.outputs ++ [v])

/-! ## The fault entry and the ends of a transition -/

/-- The fault entry (R174): the error is the response, and `FAULT` takes its code if it was `None`. Memory,
`PC`, `RB`, `STATE` and `PEND_DST` are unchanged. There is no return from a fault (R177). -/
def enterFault (s : State) (c : FaultCode) : State :=
  (match s.fault with
   | none => s.setFault (some c)
   | some _ => s).setResponse (.error c)

end State

/-- `raise X` (R174): what a faulting instruction or command answers. -/
def raise (c : FaultCode) (s : State) : Result := .next (s.enterFault c)

/-- The transition succeeds with response ok (R150). -/
def done (s : State) : Result := .next (s.setResponse .ok)

/-- The transition does not complete: the I/O capability blocks it, and nothing but the response changes
beside the attempt itself (R111, R184, R188; log entry 9). -/
def wait (s : State) : Result := .next (s.setResponse .blocked)

/-- Store a result at a resolved address and step over the instruction (R90, R91). -/
def storeAndAdvance (s : State) (a v : Int) (width : Int) : Result :=
  match s.memWrite a v with
  | .error c => raise c s
  | .ok t => done (t.advance width)

/-- Apply a function to the next state of an outcome. -/
def mapNext (f : State → State) : Result → Result
  | .next s => .next (f s)
  | .fault r => .fault r
  | .refused r => .refused r

end Sys2Proof.Machine
end

