-- ==== Sys2Proof/Machine/Flags.lean ====
section
/-! DEFINITION. Machine/Flags.lean: what stands where other machines have flags (R32). There are no status
flags: the result of a comparison is a memory word, and the one arithmetic condition, a result outside
the simple variant's range, is a fault. -/

namespace Sys2Proof.Machine

/-- The word a comparison writes (R130 to R132). -/
def boolWord (b : Bool) : Int := if b then 1 else 0

/-- Go on with an exact result, or raise `ArithmeticOverflow` where the variant cannot hold it (R100 to
R102). -/
def withResult (s : State) (r : Int) (k : Int → Result) : Result :=
  if s.isWord r then k r else raise .arithmeticOverflow s

end Sys2Proof.Machine
end

