-- ==== Sys2Proof/Syntax.lean ====
section
/-! DEFINITION. Syntax.lean: the ten instructions of rule R66 with their parameters, one constructor of
`Instr` per row of spec/opcode_table.json. -/

namespace Sys2Proof

/-- The kind of a parameter (R66): it yields a value, or it yields an address to be written. -/
inductive Kind where
  | read
  | write
deriving DecidableEq, Repr

/-- What a mode digit names (R63, R83). The seven reserved digits 3 to 9 name no mode; they are kept
apart (`reserved k` is digit `k + 3`), since the fault they raise is decided only when the parameter is
consulted (R70). -/
inductive Mode where
  | position
  | immediate
  | relative
  | reserved (k : Fin 7)
deriving DecidableEq, Repr

/-- One parameter of an instruction (R65): the mode its digit selects and the raw parameter word, whole. -/
structure Param where
  mode : Mode
  word : Int
deriving DecidableEq, Repr

/-- The closed set of ten operations (R66). -/
inductive Op where
  | add | mul | inp | out | jt | jf | lt | eq | arb | halt
deriving DecidableEq, Repr

/-- The parameter kinds of an operation, in order (R66, R82). -/
def Op.kinds : Op → List Kind
  | .add | .mul | .lt | .eq => [.read, .read, .write]
  | .inp => [.write]
  | .out | .arb => [.read]
  | .jt | .jf => [.read, .read]
  | .halt => []

/-- `n`, the number of parameter words (R60). -/
def Op.arity (o : Op) : Nat := o.kinds.length

/-- The width in words, the instruction word included (R60, R82). -/
def Op.width (o : Op) : Nat := o.arity + 1

/-- Which operations a variant has (R66, R82): opcode 9 exists only in the advanced variant. -/
def Op.existsIn : Op → Variant → Bool
  | .arb, .simple => false
  | .arb, .advanced => true
  | .add, _ | .mul, _ | .inp, _ | .out, _ | .jt, _ | .jf, _ | .lt, _ | .eq, _ | .halt, _ => true

/-- The instructions (R66), each with the parameters its opcode has. -/
inductive Instr where
  /-- ADD: `dst = a + b` (R100). -/
  | add (a b dst : Param)
  /-- MUL: `dst = a * b` (R101). -/
  | mul (a b dst : Param)
  /-- IN: `dst` = next input value (R110, R111). -/
  | inp (dst : Param)
  /-- OUT: emit `a` (R112, R113). -/
  | out (a : Param)
  /-- JT: `PC = b` if `a` is not zero, else advance 3 (R120). -/
  | jt (a b : Param)
  /-- JF: `PC = b` if `a` is zero, else advance 3 (R121). -/
  | jf (a b : Param)
  /-- LT: `dst = 1` if `a < b`, else 0 (R130). -/
  | lt (a b dst : Param)
  /-- EQ: `dst = 1` if `a = b`, else 0 (R131). -/
  | eq (a b dst : Param)
  /-- ARB: `RB = RB + a` (R140). -/
  | arb (a : Param)
  /-- HALT: stop permanently (R145). -/
  | halt
deriving DecidableEq, Repr

/-- The operation of an instruction. -/
def Instr.op : Instr → Op
  | .add _ _ _ => .add
  | .mul _ _ _ => .mul
  | .inp _ => .inp
  | .out _ => .out
  | .jt _ _ => .jt
  | .jf _ _ => .jf
  | .lt _ _ _ => .lt
  | .eq _ _ _ => .eq
  | .arb _ => .arb
  | .halt => .halt

/-- The parameters of an instruction, in the order of their words (R66). -/
def Instr.params : Instr → List Param
  | .add a b dst | .mul a b dst | .lt a b dst | .eq a b dst => [a, b, dst]
  | .inp dst => [dst]
  | .out a | .arb a => [a]
  | .jt a b | .jf a b => [a, b]
  | .halt => []

end Sys2Proof
end

