-- ==== Sys2Proof/WellFormed.lean ====
section
/-! DEFINITION. WellFormed.lean: which instructions are legal in a variant (R63, R66, R70, R72, R73). An
instruction that is not may still be executed: it then raises the fault that its rule names. -/

namespace Sys2Proof

/-- The mode exists in the variant (R63): Relative only in the advanced one, a reserved digit in none. -/
def Mode.existsIn : Mode → Variant → Bool
  | .position, _ => true
  | .immediate, _ => true
  | .relative, .advanced => true
  | .relative, .simple => false
  | .reserved _, _ => false

/-- A write target is never Immediate (R72). -/
def Mode.suits : Mode → Kind → Bool
  | .immediate, .write => false
  | .immediate, .read => true
  | .position, _ => true
  | .relative, _ => true
  | .reserved _, _ => true

/-- A parameter word is a word of the variant (R10). -/
def Param.wordOk (v : Variant) (p : Param) : Bool :=
  match v with
  | .simple => Word.fits p.word
  | .advanced => true

/-- One parameter is legal for its kind. -/
def Param.wellFormed (v : Variant) (k : Kind) (p : Param) : Bool :=
  p.mode.existsIn v && p.mode.suits k && p.wordOk v

/-- The instruction is legal in the variant. -/
def Instr.wellFormed (v : Variant) (i : Instr) : Bool :=
  i.op.existsIn v && (i.op.kinds.zip i.params).all (fun kp => kp.2.wellFormed v kp.1)

end Sys2Proof
end

