-- ==== Sys2Proof/Decode.lean ====
section
/-! DEFINITION. Decode.lean: the decoder (R80 to R84), total on any words and rejecting by name, and the
encoder of canonical words (R74). A word of memory is the unit an instruction is made of (R41, R60), so
the decoder reads a list of words. -/

namespace Sys2Proof

/-! ## The fields of an instruction word -/

/-- The result of `Decode(iw)` (R80): the opcode field and the three mode digits. -/
structure Fields where
  opcode : Int
  d1 : Int
  d2 : Int
  d3 : Int
deriving DecidableEq, Repr

/-- `Decode(iw)` (R80), total on all integers, with truncating division (D4). -/
def decodeFields (iw : Int) : Fields :=
  let q := iw.tdiv Config.opcodeModulus
  { opcode := iw.tmod Config.opcodeModulus
    d1 := q.tmod 10
    d2 := (q.tdiv 10).tmod 10
    d3 := (q.tdiv 100).tmod 10 }

/-- What a mode digit names (R63, R83). A negative digit cannot reach here (R83); it names no mode. -/
def modeOf (d : Int) : Mode :=
  if d = Config.modePosition then .position
  else if d = Config.modeImmediate then .immediate
  else if d = Config.modeRelative then .relative
  else .reserved (Fin.ofNat 7 (d - 3).toNat)

/-- `OpInfo` (R82): the operation an opcode field selects in a variant; `none` is `InvalidOpCode`. -/
def opOf (v : Variant) (opcode : Int) : Option Op :=
  if opcode = 1 then some .add
  else if opcode = 2 then some .mul
  else if opcode = 3 then some .inp
  else if opcode = 4 then some .out
  else if opcode = 5 then some .jt
  else if opcode = 6 then some .jf
  else if opcode = 7 then some .lt
  else if opcode = 8 then some .eq
  else if opcode = 9 then
    match v with
    | .advanced => some .arb
    | .simple => none
  else if opcode = 99 then some .halt
  else none

/-! ## From words to an instruction -/

/-- The instruction of an operation from its parameters, if their number is right. -/
def Op.build : Op → List Param → Option Instr
  | .add, [a, b, dst] => some (.add a b dst)
  | .mul, [a, b, dst] => some (.mul a b dst)
  | .inp, [dst] => some (.inp dst)
  | .out, [a] => some (.out a)
  | .jt, [a, b] => some (.jt a b)
  | .jf, [a, b] => some (.jf a b)
  | .lt, [a, b, dst] => some (.lt a b dst)
  | .eq, [a, b, dst] => some (.eq a b dst)
  | .arb, [a] => some (.arb a)
  | .halt, [] => some .halt
  | _, _ => none

/-- The parameters of an operation: its mode digits beside the words that follow the instruction word
(R61, R65). Only as many words as the operation has parameters are used (R84), and the digits of the
others are ignored (R71). Where words are missing the list is short. -/
def paramsOf (o : Op) (f : Fields) (words : List Int) : List Param :=
  (List.zipWith (fun d w => Param.mk (modeOf d) w) [f.d1, f.d2, f.d3] words).take o.arity

/-- Why words do not decode. -/
inductive DecodeError where
  /-- The opcode field selects no operation of the variant (R68, R69). -/
  | invalidOpCode
  /-- Words are missing: there is no instruction word. -/
  | empty
  /-- Parameter words are missing: those that are there, with their kinds, in order. -/
  | truncated (present : List (Kind × Param))
deriving DecidableEq, Repr

/-- The decoder: the instruction at the head of the words, and the words after it. A parameter whose
mode digit is illegal is decoded as it stands; the fault is raised when it is consulted (R70, R80). -/
def decode (v : Variant) : List Int → Except DecodeError (Instr × List Int)
  | [] => .error .empty
  | iw :: words =>
    let f := decodeFields iw
    match opOf v f.opcode with
    | none => .error .invalidOpCode
    | some o =>
      match o.build (paramsOf o f words) with
      | some i => .ok (i, words.drop o.arity)
      | none => .error (.truncated (o.kinds.zip (paramsOf o f words)))

/-! ## The encoder -/

/-- The opcode of an operation (R66). -/
def Op.code : Op → Int
  | .add => 1
  | .mul => 2
  | .inp => 3
  | .out => 4
  | .jt => 5
  | .jf => 6
  | .lt => 7
  | .eq => 8
  | .arb => 9
  | .halt => 99

/-- The digit of a mode (R63). -/
def Mode.digit : Mode → Int
  | .position => Config.modePosition
  | .immediate => Config.modeImmediate
  | .relative => Config.modeRelative
  | .reserved k => 3 + (k.val : Int)

/-- `100*d1 + 1000*d2 + 10000*d3` of the parameters' digits (R74): the digit of the first parameter has
weight `place`, each later one ten times more; unused digits are 0. -/
def digitsWord (place : Int) : List Param → Int
  | [] => 0
  | p :: ps => place * p.mode.digit + digitsWord (place * 10) ps

/-- The canonical instruction word (R74). -/
def Instr.word (i : Instr) : Int := i.op.code + digitsWord 100 i.params

/-- The canonical words of an instruction (R74): the instruction word, then the parameter words. -/
def encode (i : Instr) : List Int := i.word :: i.params.map Param.word

/-! ## Words numbered as the opcode table's rows -/

/-- The 32-bit two's-complement value of the low 32 bits of `w`. -/
def signed32 (w : Nat) : Int :=
  if w % 4294967296 < 2147483648 then ((w % 4294967296 : Nat) : Int)
  else ((w % 4294967296 : Nat) : Int) - 4294967296

/-- The four memory words of an instruction whose bits are the low `nbits` bits of `w`: bits 31..0 are
the instruction word, each further 32 bits the next parameter word (log entry 6). -/
def tableWords (nbits w : Nat) : List Int :=
  let b := w % 2 ^ nbits
  [signed32 b, signed32 (b / 2 ^ 32), signed32 (b / 2 ^ 64), signed32 (b / 2 ^ 96)]

/-- The instruction the decoder reads from such bits, in the advanced variant, which has every row. -/
def decodeTableWord (nbits w : Nat) : Option Instr :=
  match decode .advanced (tableWords nbits w) with
  | .ok (i, _) => some i
  | .error _ => none

end Sys2Proof
end

