-- ==== Sys2Proof/Machine/Operands.lean ====
section
/-! DEFINITION. Machine/Operands.lean: the addressing-mode multiplexer (R83 to R87). -/

namespace Sys2Proof.Machine

namespace State

/-- `ResolveRead` (R85): the value of a read parameter. -/
def resolveRead (s : State) (p : Param) : Except FaultCode Int :=
  match p.mode with
  | .position => s.memRead p.word
  | .immediate => .ok p.word
  | .relative =>
    match s.variant with
    | .advanced => s.memRead (s.rb + p.word)
    | .simple => .error .invalidAddressingMode
  | .reserved _ => .error .invalidAddressingMode

/-- The bound check of a write target (R86): the address, if it exists. -/
def checkAddress (s : State) (a : Int) : Except FaultCode Int :=
  if s.hasAddress a then .ok a else .error .outOfBounds

/-- `ResolveWrite` (R86): the address of a write-target parameter. -/
def resolveWrite (s : State) (p : Param) : Except FaultCode Int :=
  match p.mode with
  | .position => s.checkAddress p.word
  | .immediate => .error .invalidWriteTarget
  | .relative =>
    match s.variant with
    | .advanced => s.checkAddress (s.rb + p.word)
    | .simple => .error .invalidAddressingMode
  | .reserved _ => .error .invalidAddressingMode

/-- Resolution of a parameter according to its kind (R88). -/
def resolve (s : State) : Kind × Param → Except FaultCode Int
  | (.read, p) => s.resolveRead p
  | (.write, p) => s.resolveWrite p

/-- The fault of an instruction whose parameter words are not all there (R84, R89, R173): the parameters
that are there are resolved in order, and the first fault is the one raised; if none faults, the fetch
of the missing word does. -/
def truncatedFault (s : State) : List (Kind × Param) → FaultCode
  | [] => .outOfBounds
  | kp :: rest =>
    match s.resolve kp with
    | .error c => c
    | .ok _ => truncatedFault s rest

end State

/-- Go on with the value of a read parameter, or raise the fault of its resolution (R88, R89). -/
def withRead (s : State) (p : Param) (k : Int → Result) : Result :=
  match s.resolveRead p with
  | .error c => raise c s
  | .ok v => k v

/-- Go on with the address of a write-target parameter, or raise the fault of its resolution (R88, R89). -/
def withWrite (s : State) (p : Param) (k : Int → Result) : Result :=
  match s.resolveWrite p with
  | .error c => raise c s
  | .ok a => k a

end Sys2Proof.Machine
end

