-- ==== Sys2Proof/Machine/Arithmetic.lean ====
section
/-! DEFINITION. Machine/Arithmetic.lean: ADD and MUL (41_arithmetic.md). -/

namespace Sys2Proof.Machine

/-- ADD (R100). -/
def execAdd (a b dst : Param) (s : State) : Result :=
  withRead s a fun x => withRead s b fun y => withWrite s dst fun d =>
    withResult s (x + y) fun r => storeAndAdvance s d r 4

/-- MUL (R101). -/
def execMul (a b dst : Param) (s : State) : Result :=
  withRead s a fun x => withRead s b fun y => withWrite s dst fun d =>
    withResult s (x * y) fun r => storeAndAdvance s d r 4

end Sys2Proof.Machine
end

