-- ==== Sys2Proof/Machine/Compare.lean ====
section
/-! DEFINITION. Machine/Compare.lean: LT and EQ (44_compare.md). -/

namespace Sys2Proof.Machine

/-- LT (R130): signed integer comparison. -/
def execLt (a b dst : Param) (s : State) : Result :=
  withRead s a fun x => withRead s b fun y => withWrite s dst fun d =>
    storeAndAdvance s d (boolWord (decide (x < y))) 4

/-- EQ (R131). -/
def execEq (a b dst : Param) (s : State) : Result :=
  withRead s a fun x => withRead s b fun y => withWrite s dst fun d =>
    storeAndAdvance s d (boolWord (decide (x = y))) 4

end Sys2Proof.Machine
end

