-- ==== Sys2Proof/Machine/Halt.lean ====
section
/-! DEFINITION. Machine/Halt.lean: HALT (46_halt.md). -/

namespace Sys2Proof.Machine

/-- HALT (R145): `PC` keeps the address of the HALT word. -/
def execHalt (s : State) : Result := done (s.setStatus .halted)

end Sys2Proof.Machine
end

