-- ==== Sys2Proof/Machine/InputOutput.lean ====
section
/-! DEFINITION. Machine/InputOutput.lean: IN and OUT in both variants (42_io.md). The destination of IN is
resolved before any input is consumed (R89, R111). -/

namespace Sys2Proof.Machine

/-- IN in the simple variant, its destination resolved (R111): the value comes from `get_input` inside the
instruction, which blocks until the capability returns one. A value outside the 32-bit range has no meaning (U9). -/
def inputInline (s : State) (d : Int) : Result :=
  match s.supply with
  | none => wait s.polled
  | some (v, vs) =>
    if s.isWord v then storeAndAdvance (s.polled.setInputs vs) d v 2 else .refused .inputNotWord

/-- IN in the advanced variant, its destination resolved (R110, part one): latch it and suspend; `PC` still
addresses the instruction. Part two is `cmdInput`. -/
def inputSuspend (s : State) (d : Int) : Result :=
  done ((s.setPendDst d).setStatus .waitingForInput)

/-- IN (R110, R111). -/
def execInp (dst : Param) (s : State) : Result :=
  withWrite s dst fun d =>
    match s.variant with
    | .simple => inputInline s d
    | .advanced => inputSuspend s d

/-- OUT in the simple variant, its operand resolved (R113): the value goes to `io.output` inside the
instruction, which may block. -/
def outputInline (s : State) (v : Int) : Result :=
  match s.reply with
  | .blocked => wait s.offered
  | .ready | .gone => done ((s.send v).advance 2)

/-- OUT in the advanced variant, its operand resolved (R112): step over the instruction and suspend with the
value. The value is delivered by `cmdOutput`. -/
def outputSuspend (s : State) (v : Int) : Result :=
  done ((s.advance 2).setStatus (.waitingToOutput v))

/-- OUT (R112, R113). -/
def execOut (a : Param) (s : State) : Result :=
  withRead s a fun v =>
    match s.variant with
    | .simple => outputInline s v
    | .advanced => outputSuspend s v

end Sys2Proof.Machine
end

