-- ==== Sys2Proof/Machine/Jumps.lean ====
section
/-! DEFINITION. Machine/Jumps.lean: JT and JF (43_jumps.md). Both parameters are resolved whether or not
the jump is taken (R89), and the target is not checked (R122). -/

namespace Sys2Proof.Machine

/-- JT (R120). -/
def execJt (a b : Param) (s : State) : Result :=
  withRead s a fun x => withRead s b fun y =>
    done (if x ≠ 0 then s.setPc y else s.advance 3)

/-- JF (R121). -/
def execJf (a b : Param) (s : State) : Result :=
  withRead s a fun x => withRead s b fun y =>
    done (if x = 0 then s.setPc y else s.advance 3)

end Sys2Proof.Machine
end

