-- ==== Sys2Proof/Machine/RelativeBase.lean ====
section
/-! DEFINITION. Machine/RelativeBase.lean: ARB (45_relative_base.md). -/

namespace Sys2Proof.Machine

/-- ARB (R140): the operand is resolved with the old `RB`. In the simple variant opcode 9 does not exist
and raises `InvalidOpCode` (R141). -/
def execArb (a : Param) (s : State) : Result :=
  match s.variant with
  | .simple => raise .invalidOpCode s
  | .advanced => withRead s a fun x => done ((s.setRb (s.rb + x)).advance 2)

end Sys2Proof.Machine
end

