-- ==== Sys2Proof/Machine/Fetch.lean ====
section
/-! DEFINITION. Machine/Fetch.lean: the fetch of an instruction (R84, R88) and the placing of one. -/

namespace Sys2Proof.Machine

namespace State

/-- The instruction at `PC`, or the fault of its fetch (R84, R88, R173): the instruction word, the opcode,
then the parameter words the opcode has. -/
def fetch (s : State) : Except FaultCode Instr :=
  match s.memRead s.pc with
  | .error c => .error c
  | .ok iw =>
    match opOf s.variant (decodeFields iw).opcode with
    | none => .error .invalidOpCode
    | some o =>
      match decode s.variant (iw :: s.readWords (s.pc + 1) o.arity) with
      | .ok (i, _) => .ok i
      | .error .invalidOpCode => .error .invalidOpCode
      | .error .empty => .error .outOfBounds
      | .error (.truncated present) => .error (s.truncatedFault present)

/-- Where the next instruction is fetched: at `PC`, or at 0 where a simple instance's `PC` is negative. -/
def fetchBase (s : State) : Int :=
  match s.variant with
  | .advanced => s.pc
  | .simple => max s.pc 0

/-- The size of a memory that also holds `k` words at `base` (only a simple instance has a size). -/
def sizeWith (s : State) (base : Int) (k : Nat) : Nat :=
  match s.variant with
  | .advanced => s.n
  | .simple => max s.n (base.toNat + k)

/-- The state with an instruction's words stored where the next instruction is fetched, and the instance
such that it is fetched next: running, not faulted, left to `run` or `execute`, no value under way. A simple instance whose
memory ends too soon is given a memory that holds the words (log entry 7). -/
def placeWords (s : State) (words : List Int) : State :=
  { s with
    n := s.sizeWith s.fetchBase words.length
    pc := s.fetchBase
    status := .running
    fault := none
    mem := Memory.setMany s.mem s.fetchBase words
    host := []
    sending := none }

end State

end Sys2Proof.Machine
end

