-- ==== Sys2Proof/Machine/Commands.lean ====
section
/-! DEFINITION. Machine/Commands.lean: the host's commands and the drivers built from them
(47_fsm_commands.md). -/

namespace Sys2Proof.Machine

/-- `ExecOne` (R88). -/
def execOne (s : State) : Result :=
  match s.fetch with
  | .error c => raise c s
  | .ok i => exec i s

/-- `step()` (R151); in the simple variant the single-instruction transition (R158). -/
def cmdStep (s : State) : Result :=
  match s.fault, s.status with
  | none, .running => execOne s
  | _, _ => raise .statePreconditionViolation s

/-- `input(value)` (R152), which is also part two of IN (R110). -/
def cmdInput (v : Int) (s : State) : Result :=
  match s.fault, s.status with
  | none, .waitingForInput =>
    match s.memWrite s.pendDst v with
    | .error c => raise c s
    | .ok t => done ((t.advance 2).setStatus .running)
  | _, _ => raise .statePreconditionViolation s

/-- `output()` (R153), which is also the delivery of OUT (R112). -/
def cmdOutput (s : State) : Result :=
  match s.fault, s.status with
  | none, .waitingToOutput v => .next ((s.setStatus .running).setResponse (.value v))
  | _, _ => raise .statePreconditionViolation s

/-- No command has been issued since construction (R205, R206). For a clone the commands issued to its
original count (the model's choice, log entry 26). -/
def State.untouched (s : State) : Bool :=
  decide (s.response = .noCommand) && s.fault.isNone && decide (s.status = .running)

/-- The host writes one memory word before the first command (R205). -/
def hostWrite (a v : Int) (s : State) : Result :=
  if !s.untouched then .refused .lateHostWrite
  else if s.isWord v then
    match s.memWrite a v with
    | .error _ => .refused .hostWriteOutside
    | .ok t => .next t
  else .refused .hostWriteNotWord

/-- `run` has taken a value with `output()`; `io.output` takes it, or blocks (R154, R186). -/
def handOver (v : Int) (s : State) : Result :=
  match s.reply with
  | .blocked => wait s.offered
  | .ready | .gone => done ((s.send v).setSending none)

/-- `output()`, then `io.output` of its value: the part of `run` for `WaitingToOutput` (R154). Where
`io.output` blocks, the value stays under way and `run` has not returned (log entry 10). -/
def deliver (v : Int) (s : State) : Result :=
  match s.reply with
  | .blocked => mapNext (fun t => (t.offered.setSending (some v)).setResponse .blocked) (cmdOutput s)
  | .ready | .gone => mapNext (fun t => t.send v) (cmdOutput s)

/-- One turn of the loop of `run(io)` on an instance that is not faulted (R154). The simple variant's
`execute` (R157) has the same loop: its instance is running until it halts, and nothing is under way. -/
def turn (s : State) : Result :=
  match s.status with
  | .running =>
    match s.sending with
    | none => cmdStep s
    | some v => handOver v s
  | .waitingForInput =>
    match s.supply with
    | none => wait s.polled
    | some (v, vs) => cmdInput v (s.polled.setInputs vs)
  | .waitingToOutput v => deliver v s
  | .halted => done s

/-- The host has no further action of its own and leaves the instance to `run(io)` or `execute`: one turn
of the loop, and no next state once a fault has been returned (R154, R157, R176). -/
def drive (s : State) : Result :=
  match s.fault with
  | some c => .fault (.stopped c)
  | none => turn s

/-- The command at the head of the host's list is taken off when it has returned. -/
def popUnlessBlocked (rest : List HostAction) (t : State) : State :=
  if t.response = .blocked then t else t.setHost rest

/-- A driver at the head of the host's list is taken off when it has returned. -/
def popWhenEnded (rest : List HostAction) (t : State) : State :=
  if t.ended then t.setHost rest else t

/-- `run(io)` issued by hand (R154): it returns the latched code of a faulted instance at once (R160). -/
def cmdRun (s : State) : Result :=
  match s.fault with
  | some c => .next (s.setResponse (.error c))
  | none => turn s

/-- One transition: the next action of the host, or a turn of the driver it leaves the instance to. -/
def hostTurn (s : State) : Result :=
  match s.host with
  | [] => drive s
  | .step :: rest => mapNext (popUnlessBlocked rest) (cmdStep s)
  | .input v :: rest => mapNext (popUnlessBlocked rest) (cmdInput v s)
  | .output :: rest => mapNext (popUnlessBlocked rest) (cmdOutput s)
  | .run :: rest =>
    match s.variant with
    | .advanced => mapNext (popWhenEnded rest) (cmdRun s)
    | .simple => .refused .commandNotInVariant
  | .execute :: rest =>
    match s.variant with
    | .simple => mapNext (popWhenEnded rest) (cmdStep s)
    | .advanced => .refused .commandNotInVariant
  | .write a v :: rest => mapNext (fun t => t.setHost rest) (hostWrite a v s)

/-- Clone (R55, R161): two instances equal in memory and every register, which share nothing afterwards,
states being values. The response is copied too, so that a clone taken after commands counts as commanded and
the host may not write its memory (R205): the spec leaves this open, and it is the model's choice (DESIGN
CHOICE, log entry 26). -/
def clone (s : State) : State × State := (s, s)

end Sys2Proof.Machine
end

