-- ==== Sys2Proof/Machine/Step.lean ====
section
/-! DEFINITION. Machine/Step.lean: one step of the machine, and the placing of an instruction where it is
fetched. -/

namespace Sys2Proof.Machine

/-- One atomic transition (R7): the host's next action, or one turn of `run` or `execute`. -/
def step (s : State) : Host.Outcome State Fault Refusal := hostTurn s

/-- The instruction whose bits are the low `nbits` bits of `w`, as spec/opcode_table.json numbers them,
stored where the next instruction is fetched. -/
def State.withFetchWord (s : State) (nbits w : Nat) : State := s.placeWords (tableWords nbits w)

end Sys2Proof.Machine
end

