-- ==== Sys2Proof/Machine/Loader.lean ====
section
/-! DEFINITION. Machine/Loader.lean: the program loader (R202 to R204), construction (R156, R200, R201) and
the program text of given words (R76). -/

namespace Sys2Proof.Machine

namespace Loader

/-! ## Tokens of a program text -/

/-- ASCII whitespace: space, tab, line feed, carriage return (R203). -/
def isSpace (c : Char) : Bool := c = ' ' || c = '\t' || c = '\n' || c = '\r'

/-- The digits `0` to `9` (R203). -/
def isDigit (c : Char) : Bool := decide ('0'.toNat ≤ c.toNat) && decide (c.toNat ≤ '9'.toNat)

/-- The value of a digit. -/
def digitValue (c : Char) : Nat := c.toNat - '0'.toNat

/-- A text without its leading whitespace. -/
def trimLeft : List Char → List Char
  | [] => []
  | c :: cs => if isSpace c then trimLeft cs else c :: cs

/-- A text without its surrounding whitespace (R203). -/
def trim (t : List Char) : List Char := (trimLeft (trimLeft t).reverse).reverse

/-- The pieces of a text between its commas; a text without a comma is one piece (R203). -/
def splitCommas : List Char → List (List Char)
  | [] => [[]]
  | c :: cs =>
    match splitCommas cs with
    | [] => [[c]]
    | t :: ts => if c = ',' then [] :: t :: ts else (c :: t) :: ts

/-- The number that digits spell, most significant first, after a number already read. -/
def digitsFrom (n : Nat) : List Char → Option Nat
  | [] => some n
  | c :: cs => if isDigit c then digitsFrom (n * 10 + digitValue c) cs else none

/-- One or more digits (R203). -/
def parseDigits : List Char → Option Nat
  | [] => none
  | c :: cs => digitsFrom 0 (c :: cs)

/-- A token: an optional `-`, then one or more digits, surrounding whitespace removed (R203). -/
def parseToken (t : List Char) : Option Int :=
  match trim t with
  | '-' :: ds => (parseDigits ds).map (fun k => -(k : Int))
  | ds => (parseDigits ds).map (fun k => (k : Int))

/-- The token's value can be a memory value of the variant (R204). -/
def accepts (v : Variant) (w : Int) : Bool :=
  match v with
  | .simple => Word.fits w
  | .advanced => true

/-- The words of a list of tokens; any malformed token is a `ParseError` (R203, R204). -/
def parseTokens (v : Variant) : List (List Char) → Except FaultCode (List Int)
  | [] => .ok []
  | t :: ts =>
    match parseToken t with
    | none => .error .parseError
    | some w =>
      if accepts v w then
        match parseTokens v ts with
        | .ok ws => .ok (w :: ws)
        | .error c => .error c
      else .error .parseError

/-- Load (R202): the words of a program text, or `ParseError`. -/
def parse (v : Variant) (text : List Char) : Except FaultCode (List Int) :=
  parseTokens v (splitCommas text)

/-! ## Program text of given words -/

/-- The decimal digits of a number, most significant first, before digits already written; `fuel` bounds
their number. -/
def digitsInto : Nat → Nat → List Char → List Char
  | 0, _, acc => acc
  | fuel + 1, n, acc =>
    let acc' := Char.ofNat ('0'.toNat + n % 10) :: acc
    if n / 10 = 0 then acc' else digitsInto fuel (n / 10) acc'

/-- The token that spells a word. -/
def renderWord (w : Int) : List Char :=
  if w < 0 then '-' :: digitsInto (w.natAbs + 1) w.natAbs []
  else digitsInto (w.natAbs + 1) w.natAbs []

/-- The program text of words (R76): tokens separated by commas. -/
def render : List Int → List Char
  | [] => []
  | [w] => renderWord w
  | w :: w' :: ws => renderWord w ++ ',' :: render (w' :: ws)

end Loader

/-- Construct (R156, R200): an instance whose memory holds the words from address 0, everything else as at
reset. Construction cannot fail (R201). The size of a simple instance is the number of its words (R30). -/
def construct (v : Variant) (words : List Int) : State :=
  { State.reset with
    variant := v
    n := match v with
      | .simple => words.length
      | .advanced => 0
    mem := Memory.setMany [] 0 words }

/-- Load, then Construct (R202, R206): a failed load yields no instance (R178). -/
def load (v : Variant) (text : List Char) : Except FaultCode State :=
  match Loader.parse v text with
  | .ok words => .ok (construct v words)
  | .error c => .error c

end Sys2Proof.Machine
end

