-- ==== Sys2Proof/Machine/Pipeline.lean ====
section
/-! DEFINITION. Machine/Pipeline.lean: several instances (R161 to R164, R190 to R194): a host that steps
several instances by hand, and the pipeline runner, whose workers drive their instances by `run` and hand
values over FIFO channels. A single instance gains nothing from it (60_exceptions.md section 4). -/

namespace Sys2Proof.Machine

/-! ## Cooperative multiplexing -/

namespace Fleet

/-- The host has the instance with index `k` make one transition; the others are untouched (R164). An
instance that has none stays as it is. An instance of either variant may be among them, and while one blocks
inside IN, OUT or `run` the host goes on with the others, although R211 says that such a call blocks its calling
context and R164 speaks of one thread: the model's choice (DESIGN CHOICE, log entry 28). -/
def act (f : List State) (k : Nat) : List State :=
  match f[k]? with
  | none => f
  | some s =>
    match hostTurn s with
    | .next t => f.set k t
    | .fault _ => f
    | .refused _ => f

/-- The host clones the instance with index `k` (R161): a further instance, equal to it at this moment, behind
the others. -/
def cloneAt (f : List State) (k : Nat) : List State :=
  match f[k]? with
  | none => f
  | some s => f ++ [(clone s).2]

end Fleet

/-! ## The pipeline runner -/

/-- A pipeline (R190, R193). A stage is an instance, of either variant (log entry 27), whose `inputs` are the content of its inbound channel and
whose `outputs` are the values its worker has sent. In a ring the last stage also feeds the first. -/
structure Pipeline where
  stages : List State
  ring : Bool
  /-- The terminal channel, fed by the last stage, oldest first (R193). -/
  terminal : List Int
deriving DecidableEq, Repr

namespace Pipeline

/-- The stage that receives what stage `k` sends, if any. -/
def consumerOf (p : Pipeline) (k : Nat) : Option Nat :=
  if k + 1 < p.stages.length then some (k + 1)
  else if p.ring then some 0
  else none

/-- Values enter the inbound channel of a stage, behind those already there (R192). A consumer that has
ended is gone, and the values are discarded (R194, `BROKEN_PIPE = discard`, R10). -/
def receive (s : State) (values : List Int) : State :=
  if s.ended then s else s.setInputs (s.inputs ++ values)

/-- Values are sent to the consumer, if there is one. -/
def feed (stages : List State) (consumer : Option Nat) (values : List Int) : List State :=
  match consumer with
  | none => stages
  | some j =>
    match stages[j]? with
    | none => stages
    | some s => stages.set j (receive s values)

/-- The values a worker's turn has sent. -/
def sent (s t : State) : List Int := t.outputs.drop s.outputs.length

/-- The worker of stage `k` makes one turn of `run(io)` (R190): a blocking receive on the inbound channel,
a send on the outbound one, and the terminal channel takes all the last stage sends (R193). A worker that
has ended makes no turn. `run` is a command of the advanced variant (R150): that a simple instance may be a
stage too, and its worker drives it by turns of `execute` (R157) while the others make theirs, is the model's
choice (DESIGN CHOICE, log entry 27). -/
def work (p : Pipeline) (k : Nat) : Pipeline :=
  match p.stages[k]? with
  | none => p
  | some s =>
    match drive s with
    | .next t =>
      { p with
        stages := feed (p.stages.set k t) (p.consumerOf k) (sent s t)
        terminal := if k + 1 = p.stages.length then p.terminal ++ sent s t else p.terminal }
    | .fault _ => p
    | .refused _ => p

/-- Workers make turns in the order of a schedule: any interleaving (R192, U28). -/
def run (p : Pipeline) : List Nat → Pipeline
  | [] => p
  | k :: ks => run (p.work k) ks

/-- The worker of a stage is at a receive: its instance waits for input, or it is a simple one whose next
instruction is an IN with a destination (R111; simple stages are log entry 27). -/
def receiving (s : State) : Bool :=
  match s.status with
  | .waitingForInput => true
  | .running =>
    match s.variant, s.fetch with
    | .simple, .ok (.inp dst) => (s.resolveWrite dst).isOk
    | _, _ => false
  | .waitingToOutput _ => false
  | .halted => false

/-- The worker of a stage cannot move: it has ended, or it is at a receive on an empty channel. -/
def still (s : State) : Bool := s.ended || (receiving s && s.inputs.isEmpty)

/-- The proper end (R194): every instance has halted with no fault. -/
def properEnd (p : Pipeline) : Bool :=
  p.stages.all (fun s => s.fault.isNone && decide (s.status = .halted))

/-- Failure (R194): some instance has faulted. -/
def failed (p : Pipeline) : Bool := p.stages.any (fun s => s.fault.isSome)

/-- Deadlock (R194): no instance has faulted, none can move, and not all have halted. -/
def deadlocked (p : Pipeline) : Bool :=
  !p.failed && !p.properEnd && p.stages.all still

/-- `run_on_thread_with_channels` (R190) for a list of constructed instances: each stage's inbound channel
first holds the given values, and its outbound channel takes every value: channels are unbounded (R192). -/
def wire (ring : Bool) (stages : List (State × List Int)) : Pipeline :=
  { stages := stages.map (fun sv => { sv.1 with
      inputs := sv.2, stalls := [], replies := [], consumer := .ready })
    ring := ring
    terminal := [] }

end Pipeline

end Sys2Proof.Machine
end

