-- ==== Sys2Proof/Machine/Reference.lean ====
section
/-! DEFINITION. Machine/Reference.lean: `ExecOne` as rule R88 writes it down, one loop over the parameters
that fetches and resolves each before the next. The machine does not use it: it first decodes a whole
instruction and then executes it, and a statement says that the two are the same. -/

namespace Sys2Proof.Machine

/-- The loop of R88 from parameter `k` on: each parameter is fetched and resolved completely before the
next (R89). The list holds the kind and the mode digit of each parameter. -/
def resolveLoop (s : State) : Nat → List (Kind × Int) → Except FaultCode (List Int)
  | _, [] => .ok []
  | k, (kind, d) :: rest =>
    match s.memRead (s.pc + k) with
    | .error c => .error c
    | .ok p =>
      match s.resolve (kind, ⟨modeOf d, p⟩) with
      | .error c => .error c
      | .ok v =>
        match resolveLoop s (k + 1) rest with
        | .error c => .error c
        | .ok vs => .ok (v :: vs)

/-- `Effect_mn` (R88) of resolved parameters, in parameter order. -/
def effectOf (o : Op) (vs : List Int) (s : State) : Result :=
  match o, vs with
  | .add, [x, y, d] => withResult s (x + y) fun r => storeAndAdvance s d r 4
  | .mul, [x, y, d] => withResult s (x * y) fun r => storeAndAdvance s d r 4
  | .lt, [x, y, d] => storeAndAdvance s d (if x < y then 1 else 0) 4
  | .eq, [x, y, d] => storeAndAdvance s d (if x = y then 1 else 0) 4
  | .jt, [x, y] => done (if x ≠ 0 then s.setPc y else s.advance 3)
  | .jf, [x, y] => done (if x = 0 then s.setPc y else s.advance 3)
  | .inp, [d] => (match s.variant with | .simple => inputInline s d | .advanced => inputSuspend s d)
  | .out, [x] => (match s.variant with | .simple => outputInline s x | .advanced => outputSuspend s x)
  | .arb, [x] => done ((s.setRb (s.rb + x)).advance 2)
  | .halt, [] => done (s.setStatus .halted)
  | _, _ => raise .invalidOpCode s

/-- `ExecOne` (R88). -/
def execOneByRule (s : State) : Result :=
  match s.memRead s.pc with
  | .error c => raise c s
  | .ok iw =>
    let f := decodeFields iw
    match opOf s.variant f.opcode with
    | none => raise .invalidOpCode s
    | some o =>
      match resolveLoop s 1 (o.kinds.zip [f.d1, f.d2, f.d3]) with
      | .error c => raise c s
      | .ok vs => effectOf o vs s

end Sys2Proof.Machine
end

