-- ==== Sys2Proof/Safety.lean ====
section
/-! DEFINITION. Safety.lean: the ends of a run (R163, R182) and the invariant that every transition keeps. -/

namespace Sys2Proof.Machine

namespace State

/-- The run has ended properly (R163). -/
def properEnd (s : State) : Bool := s.fault.isNone && decide (s.status = .halted)

/-- The run has ended in failure (R163). -/
def failed (s : State) : Bool := s.fault.isSome

/-- The instance is in a wait state (R184). -/
def waiting (s : State) : Bool :=
  match s.status with
  | .waitingForInput => true
  | .waitingToOutput _ => true
  | .running => false
  | .halted => false

/-- The next transition is not by the host's hand but one of `run`, issued or standing, or of the standing
`execute` (R154, R157; log entry 5). -/
def LeftToRun (s : State) : Prop := s.host = [] ∨ ∃ later, s.host = .run :: later

/-- What holds of a simple instance (R10, R21, R23, R26, R30): every word it holds is in the 32-bit range,
every entry of its memory is inside the allocation, and it is running or halted. -/
structure SimpleOk (s : State) : Prop where
  size : (s.n : Int) ≤ Word.max32
  pcFits : Word.fits s.pc = true
  rbZero : s.rb = 0
  twoStates : s.status = .running ∨ s.status = .halted
  noneUnderWay : s.sending = none
  cells : ∀ c ∈ s.mem, 0 ≤ c.1 ∧ c.1 < (s.n : Int) ∧ Word.fits c.2 = true

/-- What holds of an instance that waits for input (R28): `PC` still addresses the pending IN, and `PEND_DST`
is the address that resolving its destination again gives. -/
def PendingOk (s : State) : Prop :=
  ∃ dst, s.fetch = .ok (.inp dst) ∧ s.resolveWrite dst = .ok s.pendDst

/-- The invariant of an instance. -/
structure Inv (s : State) : Prop where
  canonical : Memory.wf s.mem
  simple : s.variant = .simple → s.SimpleOk
  pending : s.status = .waitingForInput → s.PendingOk

end State

end Sys2Proof.Machine
end

