-- ==== Sys2Proof/Certificates/Slice0/Obligations.lean ====
section
/-! DEFINITION. Certificates/Slice0/Obligations.lean: the statements for the provers. Each docstring names
the rules of the spec it formalises. -/

open Sys2Proof Sys2Proof.Machine

/-! ## Words the statements share -/

namespace Sys2Proof.Machine

/-- Every address reads in `t` as it does in `s`. -/
def SameMemory (s t : State) : Prop := ∀ x, t.memRead x = s.memRead x

/-- The instance and its environment are the same but for `PC`, memory, `FAULT` and the response. -/
structure SameButPc (s t : State) : Prop where
  variant : t.variant = s.variant
  n : t.n = s.n
  rb : t.rb = s.rb
  status : t.status = s.status
  pendDst : t.pendDst = s.pendDst
  host : t.host = s.host
  inputs : t.inputs = s.inputs
  stalls : t.stalls = s.stalls
  replies : t.replies = s.replies
  consumer : t.consumer = s.consumer
  outputs : t.outputs = s.outputs
  sending : t.sending = s.sending

/-- Memory and every register but `FAULT` and the response are the same: what a fault leaves (R174). -/
structure Untouched (s t : State) : Prop where
  variant : t.variant = s.variant
  n : t.n = s.n
  mem : t.mem = s.mem
  pc : t.pc = s.pc
  rb : t.rb = s.rb
  status : t.status = s.status
  pendDst : t.pendDst = s.pendDst
  outputs : t.outputs = s.outputs
  sending : t.sending = s.sending

/-- The instance is running, not faulted, no value is under way to `io.output`, and the host leaves the
instance to `run` or `execute`. -/
structure Ready (s : State) : Prop where
  fault : s.fault = none
  status : s.status = .running
  sending : s.sending = none
  host : s.host = []

/-- The opcode values of a variant (R66, R68). -/
def legalOpcode (v : Variant) (opcode : Int) : Prop :=
  (1 ≤ opcode ∧ opcode ≤ 8) ∨ (opcode = 9 ∧ v = .advanced) ∨ opcode = 99

/-- The same instance as an advanced one. -/
def State.asAdvanced (s : State) : State := { s with variant := .advanced }

/-- The number that decimal digits spell: each digit counts ten to the number of digits behind it. -/
def decimalValue : List Char → Nat
  | [] => 0
  | c :: cs => (c.toNat - 48) * 10 ^ cs.length + decimalValue cs

end Sys2Proof.Machine

/-! ## Encoding -/

/-- Words written out from the patterns of 30_encoding.md R61, R66 and the examples of R71, R74 and R80. That
digit 2 is Relative (21101, 203) is the spec's decision D3 (R63; log entry 8, PRESUMED); that -1 is no
instruction is its decision D4 (R80). -/
def Obligations.WordsOfEveryFormatDecode : Prop :=
  decode .simple [1002, 4, 3, 4, 33]
      = .ok (.mul ⟨.position, 4⟩ ⟨.immediate, 3⟩ ⟨.position, 4⟩, [33]) ∧
  decode .advanced [21101, 5, 6, 2]
      = .ok (.add ⟨.immediate, 5⟩ ⟨.immediate, 6⟩ ⟨.relative, 2⟩, []) ∧
  decode .advanced [203, 2] = .ok (.inp ⟨.relative, 2⟩, []) ∧
  decode .simple [7004, 3] = .ok (.out ⟨.position, 3⟩, []) ∧
  decode .simple [31105, 1, 4] = .ok (.jt ⟨.immediate, 1⟩ ⟨.immediate, 4⟩, []) ∧
  decode .advanced [109, -5] = .ok (.arb ⟨.immediate, -5⟩, []) ∧
  decode .simple [12399, 7] = .ok (.halt, [7]) ∧
  decode .simple [9, 0] = .error .invalidOpCode ∧
  decode .advanced [-1] = .error .invalidOpCode

/-- R74 (which the spec derives from R61 and R62): "Decoding a canonical word gives back the same opcode and
digits", with every parameter word, for every instruction that exists in the variant and whatever words
follow, illegal mode digits included. That there are three mode digits is the spec's decision D5, and that
digit 2 is Relative its decision D3 (log entry 8). -/
def Obligations.DecodeOfEncodeIsTheInstruction : Prop :=
  ∀ (v : Variant) (i : Instr) (rest : List Int), i.op.existsIn v = true →
    decode v (encode i ++ rest) = .ok (i, rest)

/-- R62: the fields of a word that is not negative are its decimal digits; that there are three mode digits
is the spec's decision D5. -/
def Obligations.FieldsAreDecimalDigits : Prop :=
  ∀ iw : Int, 0 ≤ iw →
    (decodeFields iw).opcode = iw % 100 ∧
    (decodeFields iw).d1 = (iw / 100) % 10 ∧
    (decodeFields iw).d2 = (iw / 100 / 10) % 10 ∧
    (decodeFields iw).d3 = (iw / 100 / 100) % 10

/-- R69, the spec's decision D4: a negative instruction word has an opcode field between -99 and 0, is no
instruction, and raises `InvalidOpCode` when it is executed. -/
def Obligations.NegativeWordsAreIllegal : Prop :=
  ∀ iw : Int, iw < 0 →
    (-99 ≤ (decodeFields iw).opcode ∧ (decodeFields iw).opcode ≤ 0) ∧
    (∀ v words, decode v (iw :: words) = .error .invalidOpCode) ∧
    (∀ s : State, s.memRead s.pc = .ok iw → execOne s = .next (s.enterFault .invalidOpCode))

/-- R68: exactly the words whose opcode field is not in the variant's set are no instruction; executing one
raises `InvalidOpCode`, and so does a fetch from an unset sparse address. The opcode field of a negative word
is the spec's decision D4 (R69, R80). -/
def Obligations.IllegalOpcodesFault : Prop :=
  (∀ v iw words, decode v (iw :: words) = .error .invalidOpCode ↔ ¬ legalOpcode v (iw.tmod 100)) ∧
  (∀ (s : State) iw, s.memRead s.pc = .ok iw → ¬ legalOpcode s.variant (iw.tmod 100) →
    execOne s = .next (s.enterFault .invalidOpCode)) ∧
  (∀ s : State, s.variant = .advanced → (∀ c ∈ s.mem, c.1 ≠ s.pc) →
    execOne s = .next (s.enterFault .invalidOpCode))

/-- R71: digits that no parameter uses are ignored. Two words with the same opcode field and the same digits
at the positions of the operation's parameters decode alike, whatever their other digits. -/
def Obligations.UnusedDigitsAreIgnored : Prop :=
  ∀ (v : Variant) (iw iw' : Int) (words : List Int), 0 ≤ iw → 0 ≤ iw' → iw % 100 = iw' % 100 →
    (∀ o, opOf v (iw % 100) = some o → ∀ k : Nat, k < o.arity →
      iw / 10 ^ (k + 2) % 10 = iw' / 10 ^ (k + 2) % 10) →
    decode v (iw :: words) = decode v (iw' :: words)

/-- R82: the operation an opcode selects has the mnemonic, the parameter kinds and the width of the table,
and every other opcode value selects none. The widths of JT and JF are conflict C1's resolution, that of
HALT is the spec's decision D7. -/
def Obligations.OpInfoTable : Prop :=
  ∀ v opcode,
    (opOf v opcode).map (fun o => (o, o.kinds, o.width)) =
      if opcode = 1 then some (Op.add, [Kind.read, .read, .write], 4)
      else if opcode = 2 then some (.mul, [.read, .read, .write], 4)
      else if opcode = 3 then some (.inp, [.write], 2)
      else if opcode = 4 then some (.out, [.read], 2)
      else if opcode = 5 then some (.jt, [.read, .read], 3)
      else if opcode = 6 then some (.jf, [.read, .read], 3)
      else if opcode = 7 then some (.lt, [.read, .read, .write], 4)
      else if opcode = 8 then some (.eq, [.read, .read, .write], 4)
      else if opcode = 9 ∧ v = .advanced then some (.arb, [.read], 2)
      else if opcode = 99 then some (.halt, [], 1)
      else none

/-! ## Memory -/

/-- R42, R43: in the advanced variant a read of any integer address succeeds and an unset address reads 0; a
write always succeeds, its address then reads the value, and every other address reads as before. -/
def Obligations.SparseMemory : Prop :=
  ∀ s : State, s.variant = .advanced → ∀ a : Int,
    (∃ w, s.memRead a = .ok w) ∧
    ((∀ c ∈ s.mem, c.1 ≠ a) → s.memRead a = .ok 0) ∧
    ∀ v : Int, ∃ t, s.memWrite a v = .ok t ∧ t.memRead a = .ok v ∧
      ∀ b, b ≠ a → t.memRead b = s.memRead b

/-- R44, R45, R46 and the spec's decision D14: in the simple variant an address from 0 to `N - 1` reads and
writes, and every other address, negative or too large, is `OutOfBounds` on read and on write. -/
def Obligations.DenseMemory : Prop :=
  ∀ s : State, s.variant = .simple → ∀ a : Int,
    ((0 ≤ a ∧ a < (s.n : Int)) → (∃ w, s.memRead a = .ok w) ∧
      ∀ v : Int, ∃ t, s.memWrite a v = .ok t ∧ t.memRead a = .ok v ∧ t.n = s.n ∧
        ∀ b, b ≠ a → t.memRead b = s.memRead b) ∧
    (¬ (0 ≤ a ∧ a < (s.n : Int)) → s.memRead a = .error .outOfBounds ∧
      ∀ v : Int, s.memWrite a v = .error .outOfBounds)

/-- The canonical form, the model's choice (log entry 1): memories in it that read alike at every address
are equal data. -/
def Obligations.EqualReadsEqualMemories : Prop :=
  ∀ m m' : Memory, m.wf → m'.wf → (∀ a, m.get a = m'.get a) → m = m'

/-! ## Operands -/

/-- R83, where digit 2 is the spec's decision D3 (log entry 8): digits 0 and 1 name Position and Immediate,
digit 2 names Relative in the advanced variant alone, and the digits 3 to 9 name no mode in either. -/
def Obligations.ModeDigits : Prop :=
  modeOf 0 = .position ∧ modeOf 1 = .immediate ∧ modeOf 2 = .relative ∧
  (∀ v, Mode.position.existsIn v = true ∧ Mode.immediate.existsIn v = true) ∧
  Mode.relative.existsIn .advanced = true ∧ Mode.relative.existsIn .simple = false ∧
  (∀ d v, d < 0 ∨ 3 ≤ d → (modeOf d).existsIn v = false) ∧
  (∀ (s : State) d p, (modeOf d).existsIn s.variant = false →
    s.resolveRead ⟨modeOf d, p⟩ = .error .invalidAddressingMode ∧
    s.resolveWrite ⟨modeOf d, p⟩ = .error .invalidAddressingMode)

/-- R85: the value of a read parameter in each mode, with the fault of its memory read and of no mode. -/
def Obligations.ReadParameters : Prop :=
  ∀ (s : State) (p : Int),
    s.resolveRead ⟨.position, p⟩ = s.memRead p ∧
    s.resolveRead ⟨.immediate, p⟩ = .ok p ∧
    (s.variant = .advanced → s.resolveRead ⟨.relative, p⟩ = s.memRead (s.rb + p)) ∧
    (s.variant = .simple → s.resolveRead ⟨.relative, p⟩ = .error .invalidAddressingMode) ∧
    (∀ k, s.resolveRead ⟨.reserved k, p⟩ = .error .invalidAddressingMode)

/-- R86, R87: the address of a write-target parameter in each mode, with the simple variant's bound check at
this place (the spec's decision D14). -/
def Obligations.WriteTargets : Prop :=
  ∀ (s : State) (p : Int),
    s.resolveWrite ⟨.immediate, p⟩ = .error .invalidWriteTarget ∧
    (∀ k, s.resolveWrite ⟨.reserved k, p⟩ = .error .invalidAddressingMode) ∧
    (s.variant = .advanced → s.resolveWrite ⟨.position, p⟩ = .ok p ∧
      s.resolveWrite ⟨.relative, p⟩ = .ok (s.rb + p)) ∧
    (s.variant = .simple → s.resolveWrite ⟨.relative, p⟩ = .error .invalidAddressingMode ∧
      ((0 ≤ p ∧ p < (s.n : Int)) → s.resolveWrite ⟨.position, p⟩ = .ok p) ∧
      (¬ (0 ≤ p ∧ p < (s.n : Int)) → s.resolveWrite ⟨.position, p⟩ = .error .outOfBounds))

/-! ## Instructions, each on every path: it completes wherever its parameters resolve -/

/-- R100: ADD writes the exact sum at its destination and advances 4; a sum the simple variant cannot hold
is `ArithmeticOverflow` (the spec's decision D13); a parameter that does not resolve raises its fault, the
first in order (R89, R173; the spec's decisions D6 and D12). -/
def Obligations.AddFollowsItsRule : Prop :=
  ∀ (s : State) (a b dst : Param),
    (∀ x y d, s.resolveRead a = .ok x → s.resolveRead b = .ok y → s.resolveWrite dst = .ok d →
      ((s.variant = .advanced ∨ (-2147483648 ≤ x + y ∧ x + y ≤ 2147483647)) →
        exec (.add a b dst) s =
          .next { s with mem := s.mem.set d (x + y), pc := s.pc + 4, response := .ok }) ∧
      (s.variant = .simple → (x + y < -2147483648 ∨ x + y > 2147483647) →
        exec (.add a b dst) s = .next (s.enterFault .arithmeticOverflow))) ∧
    (∀ c, s.resolveRead a = .error c → exec (.add a b dst) s = .next (s.enterFault c)) ∧
    (∀ x c, s.resolveRead a = .ok x → s.resolveRead b = .error c →
      exec (.add a b dst) s = .next (s.enterFault c)) ∧
    (∀ x y c, s.resolveRead a = .ok x → s.resolveRead b = .ok y → s.resolveWrite dst = .error c →
      exec (.add a b dst) s = .next (s.enterFault c))

/-- R101: MUL writes the exact product at its destination and advances 4; a product the simple variant
cannot hold is `ArithmeticOverflow` (the spec's decision D13); a parameter that does not resolve raises its
fault, the first in order (R89, R173; the spec's decisions D6 and D12). -/
def Obligations.MulFollowsItsRule : Prop :=
  ∀ (s : State) (a b dst : Param),
    (∀ x y d, s.resolveRead a = .ok x → s.resolveRead b = .ok y → s.resolveWrite dst = .ok d →
      ((s.variant = .advanced ∨ (-2147483648 ≤ x * y ∧ x * y ≤ 2147483647)) →
        exec (.mul a b dst) s =
          .next { s with mem := s.mem.set d (x * y), pc := s.pc + 4, response := .ok }) ∧
      (s.variant = .simple → (x * y < -2147483648 ∨ x * y > 2147483647) →
        exec (.mul a b dst) s = .next (s.enterFault .arithmeticOverflow))) ∧
    (∀ c, s.resolveRead a = .error c → exec (.mul a b dst) s = .next (s.enterFault c)) ∧
    (∀ x c, s.resolveRead a = .ok x → s.resolveRead b = .error c →
      exec (.mul a b dst) s = .next (s.enterFault c)) ∧
    (∀ x y c, s.resolveRead a = .ok x → s.resolveRead b = .ok y → s.resolveWrite dst = .error c →
      exec (.mul a b dst) s = .next (s.enterFault c))

/-- R130: LT writes 1 or 0 at its destination by signed comparison and advances 4, in both variants; a
parameter that does not resolve raises its fault, the first in order (R89, R173; the spec's decisions D6 and
D12). -/
def Obligations.LtFollowsItsRule : Prop :=
  ∀ (s : State) (a b dst : Param),
    (∀ x y d, s.resolveRead a = .ok x → s.resolveRead b = .ok y → s.resolveWrite dst = .ok d →
      exec (.lt a b dst) s =
        .next { s with mem := s.mem.set d (if x < y then 1 else 0), pc := s.pc + 4, response := .ok }) ∧
    (∀ c, s.resolveRead a = .error c → exec (.lt a b dst) s = .next (s.enterFault c)) ∧
    (∀ x c, s.resolveRead a = .ok x → s.resolveRead b = .error c →
      exec (.lt a b dst) s = .next (s.enterFault c)) ∧
    (∀ x y c, s.resolveRead a = .ok x → s.resolveRead b = .ok y → s.resolveWrite dst = .error c →
      exec (.lt a b dst) s = .next (s.enterFault c))

/-- R131: EQ writes 1 or 0 at its destination by equality and advances 4; a parameter that does not resolve
raises its fault, the first in order (R89, R173; the spec's decisions D6 and D12). -/
def Obligations.EqFollowsItsRule : Prop :=
  ∀ (s : State) (a b dst : Param),
    (∀ x y d, s.resolveRead a = .ok x → s.resolveRead b = .ok y → s.resolveWrite dst = .ok d →
      exec (.eq a b dst) s =
        .next { s with mem := s.mem.set d (if x = y then 1 else 0), pc := s.pc + 4, response := .ok }) ∧
    (∀ c, s.resolveRead a = .error c → exec (.eq a b dst) s = .next (s.enterFault c)) ∧
    (∀ x c, s.resolveRead a = .ok x → s.resolveRead b = .error c →
      exec (.eq a b dst) s = .next (s.enterFault c)) ∧
    (∀ x y c, s.resolveRead a = .ok x → s.resolveRead b = .ok y → s.resolveWrite dst = .error c →
      exec (.eq a b dst) s = .next (s.enterFault c))

/-- R120: JT sets `PC` to the value of `b` if the value of `a` is not zero and advances 3 if it is; the target
is any word (R122). Both parameters are resolved in either case (R89, the spec's decision D6), and the first
that does not resolve raises its fault (R173, D12). -/
def Obligations.JtFollowsItsRule : Prop :=
  ∀ (s : State) (a b : Param),
    (∀ x y, s.resolveRead a = .ok x → s.resolveRead b = .ok y →
      (x ≠ 0 → exec (.jt a b) s = .next { s with pc := y, response := .ok }) ∧
      (x = 0 → exec (.jt a b) s = .next { s with pc := s.pc + 3, response := .ok })) ∧
    (∀ c, s.resolveRead a = .error c → exec (.jt a b) s = .next (s.enterFault c)) ∧
    (∀ x c, s.resolveRead a = .ok x → s.resolveRead b = .error c →
      exec (.jt a b) s = .next (s.enterFault c))

/-- R121: JF sets `PC` to the value of `b` if the value of `a` is zero and advances 3 if it is not. Both
parameters are resolved in either case (R89, the spec's decision D6), and the first that does not resolve
raises its fault (R173, D12). -/
def Obligations.JfFollowsItsRule : Prop :=
  ∀ (s : State) (a b : Param),
    (∀ x y, s.resolveRead a = .ok x → s.resolveRead b = .ok y →
      (x = 0 → exec (.jf a b) s = .next { s with pc := y, response := .ok }) ∧
      (x ≠ 0 → exec (.jf a b) s = .next { s with pc := s.pc + 3, response := .ok })) ∧
    (∀ c, s.resolveRead a = .error c → exec (.jf a b) s = .next (s.enterFault c)) ∧
    (∀ x c, s.resolveRead a = .ok x → s.resolveRead b = .error c →
      exec (.jf a b) s = .next (s.enterFault c))

/-- R110: IN in the advanced variant. Part one latches the resolved destination and suspends with `PC`
unchanged, or raises the fault of the resolution; part two, `input(value)`, writes the value there, advances
2 and goes back to `Running`. What part one resolves and when `PC` advances are the spec's decision D8. -/
def Obligations.InSuspendsAndResumes : Prop :=
  ∀ s : State, s.variant = .advanced →
    (∀ dst d, s.resolveWrite dst = .ok d →
      exec (.inp dst) s =
        .next { s with pendDst := d, status := .waitingForInput, response := .ok }) ∧
    (∀ dst c, s.resolveWrite dst = .error c → exec (.inp dst) s = .next (s.enterFault c)) ∧
    (∀ v, s.fault = none → s.status = .waitingForInput →
      cmdInput v s = .next { s with
        mem := s.mem.set s.pendDst v, pc := s.pc + 2, status := .running, response := .ok })

/-- R111: IN in the simple variant takes one value from `get_input`, writes it and advances 2; while
`get_input` does not return, because no value is supplied or because the attempt stalls (log entry 25), it
blocks, and nothing changes but the response and the attempt (the model's choice, log entry 9); a faulting IN
consumes no value (the spec's decision D15); a value outside the 32-bit range has no meaning (U9, log entry
11). -/
def Obligations.InReadsInline : Prop :=
  ∀ s : State, s.variant = .simple → ∀ dst : Param,
    (∀ d, s.resolveWrite dst = .ok d →
      (∀ v vs, s.stalls.headD false = false → s.inputs = v :: vs →
        (Word.fits v = true → exec (.inp dst) s = .next { s with
          mem := s.mem.set d v, pc := s.pc + 2, inputs := vs, stalls := s.stalls.tail, response := .ok }) ∧
        (Word.fits v = false → exec (.inp dst) s = .refused .inputNotWord)) ∧
      (s.stalls.headD false = true ∨ s.inputs = [] →
        exec (.inp dst) s = .next { s with stalls := s.stalls.tail, response := .blocked })) ∧
    (∀ c, s.resolveWrite dst = .error c → exec (.inp dst) s = .next (s.enterFault c))

/-- R112: OUT in the advanced variant suspends with the resolved value, `PC` already advanced by 2, or
raises the fault of the resolution; `output()` returns the value and goes back to `Running`. -/
def Obligations.OutSuspendsAndDelivers : Prop :=
  ∀ s : State, s.variant = .advanced →
    (∀ a v, s.resolveRead a = .ok v →
      exec (.out a) s =
        .next { s with pc := s.pc + 2, status := .waitingToOutput v, response := .ok }) ∧
    (∀ a c, s.resolveRead a = .error c → exec (.out a) s = .next (s.enterFault c)) ∧
    (∀ v, s.fault = none → s.status = .waitingToOutput v →
      cmdOutput s = .next { s with status := .running, response := .value v })

/-- R113, R187: OUT in the simple variant hands its value to `io.output` and advances 2; a consumer that is
gone changes nothing for the instruction; where the attempt blocks (log entry 25), nothing changes but the
response and the attempt (the model's choice, log entry 9); a parameter that does not resolve raises its
fault. -/
def Obligations.OutWritesInline : Prop :=
  ∀ s : State, s.variant = .simple → ∀ a : Param,
    (∀ v, s.resolveRead a = .ok v →
      (s.replies.headD s.consumer = .ready → exec (.out a) s = .next { s with
        pc := s.pc + 2, outputs := s.outputs ++ [v], replies := s.replies.tail, response := .ok }) ∧
      (s.replies.headD s.consumer = .gone → exec (.out a) s = .next { s with
        pc := s.pc + 2, replies := s.replies.tail, response := .ok }) ∧
      (s.replies.headD s.consumer = .blocked → exec (.out a) s = .next { s with
        replies := s.replies.tail, response := .blocked })) ∧
    (∀ c, s.resolveRead a = .error c → exec (.out a) s = .next (s.enterFault c))

/-- R140, R141: ARB adds its operand, resolved with the old `RB`, to `RB` and advances 2; a parameter that
does not resolve raises its fault; in the simple variant a word of opcode 9 raises `InvalidOpCode`, and so
does `exec` of the term `arb`, to which no word decodes there (the model's choice, log entry 15). -/
def Obligations.ArbFollowsItsRule : Prop :=
  ∀ (s : State) (a : Param),
    (s.variant = .advanced → ∀ x, s.resolveRead a = .ok x →
      exec (.arb a) s = .next { s with rb := s.rb + x, pc := s.pc + 2, response := .ok }) ∧
    (s.variant = .advanced → ∀ c, s.resolveRead a = .error c →
      exec (.arb a) s = .next (s.enterFault c)) ∧
    (s.variant = .simple → exec (.arb a) s = .next (s.enterFault .invalidOpCode)) ∧
    (s.variant = .simple → ∀ iw, s.memRead s.pc = .ok iw → iw.tmod 100 = 9 →
      execOne s = .next (s.enterFault .invalidOpCode))

/-- R145: HALT stops with `PC` on its word (the spec's decision D7); no parameter word is read, so it runs
as the last word of a dense memory; its mode digits and every higher digit are ignored. -/
def Obligations.HaltFollowsItsRule : Prop :=
  (∀ s : State, exec .halt s = .next { s with status := .halted, response := .ok }) ∧
  (∀ (s : State) iw, s.memRead s.pc = .ok iw → iw.tmod 100 = 99 →
    execOne s = .next { s with status := .halted, response := .ok })

/-! ## Frames -/

/-- ADD, MUL, LT and EQ: when one answers a next state, every register but `PC` and `FAULT` is unchanged,
and every address reads as before except the one its destination resolves to. That a fault changes nothing
but `FAULT` and the response is the spec's decision D9 (R174). -/
def Obligations.FrameOfTheStores : Prop :=
  ∀ (s t : State) (a b dst : Param) (i : Instr),
    (i = .add a b dst ∨ i = .mul a b dst ∨ i = .lt a b dst ∨ i = .eq a b dst) →
    exec i s = .next t →
    SameButPc s t ∧ (t.fault = s.fault ∨ ∃ c, t = s.enterFault c) ∧
    ∀ x, (∀ d, s.resolveWrite dst = .ok d → x ≠ d) → t.memRead x = s.memRead x

/-- OUT, JT, JF, ARB and HALT: no address reads differently, `RB` changes in ARB alone, `STATE` in HALT and
in the advanced variant's OUT alone, the delivered values and the attempts at `io.output` in the simple
variant's OUT alone, `PC` in all but HALT (R145, the spec's decision D7). That a fault changes nothing but
`FAULT` and the response is the spec's decision D9 (R174). A blocked OUT of the simple variant and the
record of its attempts are the model's choices (log entries 9 and 25). -/
def Obligations.FrameOfTheOthers : Prop :=
  ∀ (s t : State) (i : Instr),
    ((∃ a, i = .out a) ∨ (∃ a b, i = .jt a b) ∨ (∃ a b, i = .jf a b) ∨ (∃ a, i = .arb a) ∨ i = .halt) →
    exec i s = .next t →
    SameMemory s t ∧ t.mem = s.mem ∧ (t.fault = s.fault ∨ ∃ c, t = s.enterFault c) ∧
    t.variant = s.variant ∧ t.n = s.n ∧ t.pendDst = s.pendDst ∧ t.host = s.host ∧
    t.inputs = s.inputs ∧ t.stalls = s.stalls ∧ t.consumer = s.consumer ∧ t.sending = s.sending ∧
    ((∀ a, i ≠ .arb a) → t.rb = s.rb) ∧
    ((∀ a, i ≠ .out a) → i ≠ .halt → t.status = s.status) ∧
    (s.variant = .simple → i ≠ .halt → t.status = s.status) ∧
    ((∀ a, i ≠ .out a) → t.outputs = s.outputs ∧ t.replies = s.replies) ∧
    (s.variant = .advanced → t.outputs = s.outputs ∧ t.replies = s.replies) ∧
    (i = .halt → t.pc = s.pc)

/-- IN: `RB`, the delivered values and the configuration are unchanged; in the advanced variant no address
reads differently, `PC` is unchanged and no value is consumed, and `STATE` and `PEND_DST` alone may change;
in the simple variant `STATE` and `PEND_DST` are unchanged and every address reads as before except the one
the destination resolves to. That `PC` is unchanged in the advanced variant is the spec's decision D8 (R110:
`PC` advances in part two), and that a fault changes nothing but `FAULT` and the response its decision D9
(R174). A blocked IN of the simple variant and the record of its attempts are the model's choices (log
entries 9 and 25). -/
def Obligations.FrameOfIn : Prop :=
  ∀ (s t : State) (dst : Param), exec (.inp dst) s = .next t →
    t.variant = s.variant ∧ t.n = s.n ∧ t.rb = s.rb ∧ t.host = s.host ∧ t.replies = s.replies ∧
    t.consumer = s.consumer ∧ t.outputs = s.outputs ∧ t.sending = s.sending ∧
    (t.fault = s.fault ∨ ∃ c, t = s.enterFault c) ∧
    (s.variant = .advanced → SameMemory s t ∧ t.pc = s.pc ∧ t.inputs = s.inputs ∧
      t.stalls = s.stalls) ∧
    (s.variant = .simple → t.status = s.status ∧ t.pendDst = s.pendDst ∧
      ∀ x, (∀ d, s.resolveWrite dst = .ok d → x ≠ d) → t.memRead x = s.memRead x)

/-! ## Faults -/

/-- R174, R175, the spec's decision D9: the fault entry. The error is the response; `FAULT` takes the code
if it was `None` and keeps the older one otherwise; memory, `PC`, `RB`, `STATE` with `OUT_VAL`, and
`PEND_DST` are unchanged. -/
def Obligations.FaultEntry : Prop :=
  ∀ (s : State) (c : FaultCode),
    raise c s = .next (s.enterFault c) ∧
    (s.enterFault c).response = .error c ∧
    (s.fault = none → (s.enterFault c).fault = some c) ∧
    (∀ old, s.fault = some old → (s.enterFault c).fault = some old) ∧
    Untouched s (s.enterFault c)

/-- R181, R90 (which the spec derives from R88): faults are precise. Whenever a step records a fault,
memory, `PC`, `RB`, `STATE`, `PEND_DST` and the delivered values are as before the step, no fault was
recorded before, and the response is the error. That no fault was recorded before (R29) and that the
response is the error (R174, R175) is the spec's decision D9. -/
def Obligations.FaultsArePrecise : Prop :=
  ∀ s t : State, Machine.step s = .next t → t.fault ≠ s.fault →
    Untouched s t ∧ s.fault = none ∧ ∃ c, t.fault = some c ∧ t.response = .error c

/-- R29, R176, R177, the spec's decision D9: `FAULT` is sticky. No step of a faulted instance changes
`FAULT`, memory or any register. -/
def Obligations.FaultIsSticky : Prop :=
  ∀ (s t : State) (c : FaultCode), s.fault = some c → Machine.step s = .next t →
    t.fault = some c ∧ Untouched s t

/-- R160, the spec's decision D9: while `FAULT` is not `None` every command is refused with
`StatePreconditionViolation` and changes nothing, `FAULT` included; `run` returns the latched code at once.
The model's driver, which the host leaves the instance to, has then no next state (the model's choice, log
entry 5). That `run` returns the code at once is the spec's decision D28 (R154), that a refused call is the
violation its decision D10 (R159); that a simple instance answers `step()`, `input` and `output` so are the
model's choices (log entries 13 and 21). -/
def Obligations.FaultedRefusesEveryCommand : Prop :=
  ∀ (s : State) (c : FaultCode), s.fault = some c →
    cmdStep s = .next { s with response := .error .statePreconditionViolation } ∧
    (∀ v, cmdInput v s = .next { s with response := .error .statePreconditionViolation }) ∧
    cmdOutput s = .next { s with response := .error .statePreconditionViolation } ∧
    cmdRun s = .next { s with response := .error c } ∧
    (∀ rest, s.variant = .simple → s.host = .execute :: rest → Machine.step s =
      .next { s with response := .error .statePreconditionViolation, host := rest }) ∧
    (s.host = [] → Machine.step s = .fault (.stopped c))

/-- R72: an Immediate destination of ADD, MUL, IN, LT or EQ is never a destination. Whatever the state, the
instruction only enters a fault; for IN, and for the others once their sources resolve, it is
`InvalidWriteTarget`. -/
def Obligations.ImmediateDestinationsFault : Prop :=
  ∀ (s : State) (a b : Param) (w : Int) (i : Instr),
    (i = .add a b ⟨.immediate, w⟩ ∨ i = .mul a b ⟨.immediate, w⟩ ∨ i = .lt a b ⟨.immediate, w⟩ ∨
      i = .eq a b ⟨.immediate, w⟩ ∨ i = .inp ⟨.immediate, w⟩) →
    (∃ c, exec i s = .next (s.enterFault c)) ∧
    ((i = .inp ⟨.immediate, w⟩ ∨
        ∃ x y, s.resolveRead a = .ok x ∧ s.resolveRead b = .ok y) →
      exec i s = .next (s.enterFault .invalidWriteTarget))

/-- R88, R89, R173: the machine, which decodes a whole instruction and then executes it, does what the loop
of R88 does, which fetches and resolves each parameter completely before the next: the same next state, the
same one of several faults (the spec's decisions D6 and D12). That only the parameter words of the opcode
are fetched is the spec's decision D5, that a write target's bound is checked at resolution its decision
D14; decoding first is the model's choice (log entry 14). -/
def Obligations.ExecOneIsTheLoopOfTheRule : Prop :=
  ∀ s : State, execOne s = execOneByRule s

/-! ## Commands and the state machine -/

/-- The bytes of R60 are words. When the words at `PC` decode to an instruction, a step of an instance that
is ready is `exec` of it at that state; a `step()` of the host does the same and is taken off the host's
list unless the capability blocks it (log entry 5). That a value may be under way, in which case the driver
does not step, is log entry 10. -/
def Obligations.StepRunsTheDecodedInstruction : Prop :=
  ∀ (s : State) (iw : Int) (i : Instr) (words rest : List Int),
    s.fault = none → s.status = .running →
    (∀ k : Nat, k ≤ i.op.arity → ∃ w, (iw :: words)[k]? = some w ∧ s.memRead (s.pc + k) = .ok w) →
    decode s.variant (iw :: words) = .ok (i, rest) →
    (s.host = [] → s.sending = none → Machine.step s = exec i s) ∧
    (∀ later, s.host = .step :: later →
      Machine.step s = mapNext (popUnlessBlocked later) (exec i s))

/-- R151: `step()` executes exactly one instruction when it is legal, and raises
`StatePreconditionViolation` in any other state. In the simple variant it is the single-instruction
transition of R158 (the spec's decision D29), which meets a state that does not allow it in the same way
(the model's choice, log entry 21). That the violation is a fault that is recorded is the spec's decision
D10 (R159). -/
def Obligations.StepCommand : Prop :=
  ∀ s : State,
    (s.fault = none → s.status = .running → cmdStep s = execOne s) ∧
    (s.fault ≠ none ∨ s.status ≠ .running →
      cmdStep s = .next (s.enterFault .statePreconditionViolation))

/-- R152, where the update of `PC` is the spec's decision D8: `input(value)` writes the value at `PEND_DST`,
advances 2 and goes to `Running` when it is legal, and raises `StatePreconditionViolation` in any other
state, a second `input` included. That the violation is a fault that is recorded is the spec's decision D10
(R159). -/
def Obligations.InputCommand : Prop :=
  ∀ (s : State) (v : Int), s.variant = .advanced →
    (s.fault = none → s.status = .waitingForInput →
      ∃ t, cmdInput v s = .next t ∧
        t = { s with mem := s.mem.set s.pendDst v, pc := s.pc + 2, status := .running, response := .ok } ∧
        t.memRead s.pendDst = .ok v ∧
        ∀ w, cmdInput w t = .next (t.enterFault .statePreconditionViolation)) ∧
    (s.fault ≠ none ∨ s.status ≠ .waitingForInput →
      cmdInput v s = .next (s.enterFault .statePreconditionViolation))

/-- R153: `output()` returns the pending value and goes to `Running` when it is legal, changing nothing
else, and raises `StatePreconditionViolation` in any other state, a second `output` included. That the
simple variant, which has no such command, answers it in the same way is the model's choice (log entry 13).
That the violation is a fault that is recorded is the spec's decision D10 (R159). -/
def Obligations.OutputCommand : Prop :=
  ∀ s : State,
    (∀ v, s.fault = none → s.status = .waitingToOutput v →
      ∃ t, cmdOutput s = .next t ∧ t = { s with status := .running, response := .value v } ∧
        cmdOutput t = .next (t.enterFault .statePreconditionViolation)) ∧
    (s.fault ≠ none ∨ (∀ v, s.status ≠ .waitingToOutput v) →
      cmdOutput s = .next (s.enterFault .statePreconditionViolation))

/-- R25: the transitions of `STATE` in the advanced variant are these and no other, over every step, and
each comes with its cause; every other pair of state and command is a `StatePreconditionViolation`. The
value that lifts the wait for input is the host's or the first one supplied. The model's choices in it: a
pending value that `run` has taken may be under way to an `io.output` that blocks (log entry 10), the
replies of `io.output` are a list in State (log entry 25), and a simple instance answers the commands it
does not have as violations (log entries 13 and 21). That `PC` advances when the wait for input ends is the
spec's decision D8 (R152), and that a violation is a fault that is recorded its decision D10 (R159). -/
def Obligations.StateTransitions : Prop :=
  (∀ s : State, s.status ≠ .running → cmdStep s = .next (s.enterFault .statePreconditionViolation)) ∧
  (∀ (s : State) (v : Int), s.status ≠ .waitingForInput →
    cmdInput v s = .next (s.enterFault .statePreconditionViolation)) ∧
  (∀ s : State, (∀ v, s.status ≠ .waitingToOutput v) →
    cmdOutput s = .next (s.enterFault .statePreconditionViolation)) ∧
  ∀ s t : State, s.variant = .advanced → Machine.step s = .next t →
    (s.status = .running →
      t.status = .running ∨
      (t.status = .waitingForInput ∧ ∃ dst, s.fetch = .ok (.inp dst)) ∨
      (∃ a v, t.status = .waitingToOutput v ∧ s.fetch = .ok (.out a) ∧ s.resolveRead a = .ok v) ∨
      (t.status = .halted ∧ s.fetch = .ok .halt)) ∧
    (s.status = .waitingForInput →
      t.status = .waitingForInput ∨
      (t.status = .running ∧ t.pc = s.pc + 2 ∧ ∃ v, t.mem = s.mem.set s.pendDst v ∧
        ((∃ later, s.host = .input v :: later) ∨ (s.LeftToRun ∧ s.inputs = v :: t.inputs)))) ∧
    (∀ v, s.status = .waitingToOutput v →
      t.status = .waitingToOutput v ∨
      (t.status = .running ∧ t.pc = s.pc ∧ t.mem = s.mem ∧
        (((∃ later, s.host = .output :: later) ∧ t.response = .value v) ∨
          (s.LeftToRun ∧ s.reply ≠ .blocked ∧ t.response = .value v) ∨
          (s.LeftToRun ∧ s.reply = .blocked ∧ t.sending = some v)))) ∧
    (s.status = .halted → t.status = .halted)

/-- R146: `Halted` is terminal, in both variants. No step of a halted instance changes `STATE`, memory,
`PC`, `RB`, `PEND_DST` or the delivered values, and `step`, `input` and `output` are each a violation. That
the violation is a fault that is recorded is the spec's decision D10 (R159); that a simple instance answers
these commands so, and that a driver on a halted instance answers ok, are the model's choices (log entries
4, 5, 13 and 21). -/
def Obligations.HaltedIsTerminal : Prop :=
  ∀ s : State, s.status = .halted →
    (∀ t, Machine.step s = .next t → Untouched s t) ∧
    cmdStep s = .next (s.enterFault .statePreconditionViolation) ∧
    (∀ v, cmdInput v s = .next (s.enterFault .statePreconditionViolation)) ∧
    cmdOutput s = .next (s.enterFault .statePreconditionViolation)

/-- R23: `RB` is mutated only by the adjust opcode. A step that changes it has executed the ARB at `PC`, in
the advanced variant, and has added the operand. -/
def Obligations.OnlyArbChangesRb : Prop :=
  ∀ s t : State, Machine.step s = .next t → t.rb ≠ s.rb →
    s.variant = .advanced ∧ s.fault = none ∧ s.status = .running ∧
    ∃ a x, s.fetch = .ok (.arb a) ∧ s.resolveRead a = .ok x ∧ t.rb = s.rb + x

/-- R31: memory is written only by ADD, MUL, LT and EQ at execution, by IN (simple: at execution; advanced:
at `input`), and by the host before the first command; and only at the address they resolve or name. -/
def Obligations.OnlyTheseWriteMemory : Prop :=
  ∀ (s t : State) (x : Int), Machine.step s = .next t → t.mem.get x ≠ s.mem.get x →
    (s.fault = none ∧ s.status = .running ∧ ∃ dst, s.resolveWrite dst = .ok x ∧
      ((∃ a b, s.fetch = .ok (.add a b dst) ∨ s.fetch = .ok (.mul a b dst) ∨
          s.fetch = .ok (.lt a b dst) ∨ s.fetch = .ok (.eq a b dst)) ∨
        (s.variant = .simple ∧ s.fetch = .ok (.inp dst)))) ∨
    (s.fault = none ∧ s.status = .waitingForInput ∧ x = s.pendDst) ∨
    (s.untouched = true ∧ ∃ v rest, s.host = .write x v :: rest)

/-- R205, the spec's decision D17: between construction and the first command the host may write any memory
word of the instance (simple: inside the allocation, a value in the range); later it may not, and such a run
has no meaning (U16, log entry 12). A clone taken after commands counts as commanded (the model's choice, log
entry 26). The host may read at any time, which is no transition. -/
def Obligations.HostAccessToMemory : Prop :=
  ∀ (s : State) (x v : Int) (rest : List HostAction), s.host = .write x v :: rest →
    (s.response = .noCommand → s.fault = none → s.status = .running →
      (s.variant = .simple → (0 ≤ x ∧ x < (s.n : Int)) ∧ Word.fits v = true) →
      ∃ t, Machine.step s = .next t ∧ t = { s with mem := s.mem.set x v, host := rest } ∧
        t.hostRead x = some v ∧ ∀ y, y ≠ x → t.hostRead y = s.hostRead y) ∧
    (s.response ≠ .noCommand → Machine.step s = .refused .lateHostWrite)

/-- R184, R188: a wait leaves all state intact. An instance left to `run` that waits for a value, where
`get_input` does not return, or whose `run` is inside an `io.output` that does not return (log entry 10),
stays as it is but for the response and the attempt (log entries 9 and 25); what lifts the wait is an attempt
that returns. -/
def Obligations.WaitingChangesNothing : Prop :=
  ∀ s : State, s.fault = none → s.host = [] →
    (s.status = .waitingForInput → s.stalls.headD false = true ∨ s.inputs = [] →
      Machine.step s = .next { s with response := .blocked, stalls := s.stalls.tail }) ∧
    (∀ v, s.status = .running → s.sending = some v → s.replies.headD s.consumer = .blocked →
      Machine.step s = .next { s with response := .blocked, replies := s.replies.tail })

/-- R154: a turn of `run(io)` in each state: `step()` while `Running`; `get_input` and `input` when
`WaitingForInput`; `output()` and `io.output` when `WaitingToOutput`; it returns when `Halted` (with the
response that log entry 4 names). Where `io.output` blocks, `output()` has been issued and the value stays
under way until an attempt returns (log entries 10 and 25); a consumer that is gone discards it (R187). The
form of a blocked step is log entry 9. -/
def Obligations.RunDrivesTheLoop : Prop :=
  ∀ s : State, s.variant = .advanced → s.fault = none → s.host = [] →
    (s.status = .running → s.sending = none → Machine.step s = cmdStep s) ∧
    (∀ v vs, s.status = .waitingForInput → s.stalls.headD false = false → s.inputs = v :: vs →
      Machine.step s = cmdInput v { s with inputs := vs, stalls := s.stalls.tail }) ∧
    (∀ v, s.status = .waitingToOutput v →
      (s.replies.headD s.consumer = .ready → Machine.step s = .next { s with
        status := .running, response := .value v, outputs := s.outputs ++ [v],
        replies := s.replies.tail }) ∧
      (s.replies.headD s.consumer = .gone → Machine.step s = .next { s with
        status := .running, response := .value v, replies := s.replies.tail }) ∧
      (s.replies.headD s.consumer = .blocked → Machine.step s = .next { s with
        status := .running, response := .blocked, sending := some v, replies := s.replies.tail })) ∧
    (∀ v, s.status = .running → s.sending = some v →
      (s.replies.headD s.consumer = .ready → Machine.step s = .next { s with
        response := .ok, outputs := s.outputs ++ [v], sending := none, replies := s.replies.tail }) ∧
      (s.replies.headD s.consumer = .gone → Machine.step s = .next { s with
        response := .ok, sending := none, replies := s.replies.tail }) ∧
      (s.replies.headD s.consumer = .blocked → Machine.step s = .next { s with
        response := .blocked, replies := s.replies.tail })) ∧
    (s.status = .halted → Machine.step s = .next { s with response := .ok })

/-- R157: `execute` runs a simple instance to HALT or to a fault, one instruction a step, stays issued until
it returns (the model's choice, log entry 5), and is a violation on an instance that has halted (the spec's
decision D10). -/
def Obligations.ExecuteRunsToHalt : Prop :=
  ∀ (s : State) (rest : List HostAction), s.variant = .simple → s.host = .execute :: rest →
    (s.fault = none → s.status = .running →
      ∀ t, Machine.step s = .next t →
        (t.ended = true → t.host = rest) ∧ (t.ended = false → t.host = s.host) ∧
        ∃ u, execOne s = .next u ∧ t = { u with host := t.host }) ∧
    (s.fault = none → s.status = .halted →
      Machine.step s = .next { s with
        fault := some .statePreconditionViolation,
        response := .error .statePreconditionViolation, host := rest })

/-- R114 (which the spec derives from R110 to R113): transfers are exact. A step that consumes a value
consumes the first one supplied, for the IN at `PC`, writes it at that IN's destination and steps over the
IN; a step that delivers a value delivers one, the operand of the OUT at `PC` (simple), the pending
`OUT_VAL` (advanced), or a value under way. Conversely an IN that completes (simple: `PC` moves; advanced:
the wait ends) writes one value, the first one supplied, which it consumes, or the host's, where none is
consumed; and an OUT that completes delivers its value once: to the host, or through `io.output`, whose
consumer takes it or is gone. That the value of an OUT may be under way while `io.output` blocks, and is
delivered when it returns, is the model's choice (log entry 10). That the step which consumes an advanced
IN's value moves `PC` by 2 is the spec's decision D8 (R110, R152). The replies of `io.output` are a list in
State (log entry 25), and `Inv` holds what log entries 10, 17 and 20 put into it. -/
def Obligations.TransfersAreExact : Prop :=
  ∀ s t : State, s.Inv → Machine.step s = .next t →
    (t.inputs = s.inputs ∨
      ∃ v dst d, s.inputs = v :: t.inputs ∧ s.fetch = .ok (.inp dst) ∧ s.resolveWrite dst = .ok d ∧
        t.mem = s.mem.set d v ∧ t.pc = s.pc + 2 ∧ t.status = .running) ∧
    (t.outputs = s.outputs ∨
      ∃ v, t.outputs = s.outputs ++ [v] ∧
        ((s.variant = .simple ∧ ∃ a, s.fetch = .ok (.out a) ∧ s.resolveRead a = .ok v) ∨
          s.status = .waitingToOutput v ∨ s.sending = some v)) ∧
    (∀ dst, s.variant = .simple → s.fetch = .ok (.inp dst) → t.pc ≠ s.pc →
      ∃ v d, s.inputs = v :: t.inputs ∧ s.resolveWrite dst = .ok d ∧ t.mem = s.mem.set d v) ∧
    (s.status = .waitingForInput → t.status = .running →
      ∃ v, t.mem = s.mem.set s.pendDst v ∧
        (((∃ later, s.host = .input v :: later) ∧ t.inputs = s.inputs) ∨
          (s.LeftToRun ∧ s.inputs = v :: t.inputs))) ∧
    (∀ a, s.variant = .simple → s.fetch = .ok (.out a) → t.pc ≠ s.pc →
      ∃ v, s.resolveRead a = .ok v ∧
        t.outputs = if s.reply = .gone then s.outputs else s.outputs ++ [v]) ∧
    (∀ v, s.status = .waitingToOutput v → t.status = .running →
      ((∃ later, s.host = .output :: later) ∧ t.response = .value v ∧ t.outputs = s.outputs) ∨
      (s.LeftToRun ∧
        ((s.reply = .ready ∧ t.outputs = s.outputs ++ [v]) ∨
          (s.reply = .gone ∧ t.outputs = s.outputs) ∨
          (s.reply = .blocked ∧ t.outputs = s.outputs ∧ t.sending = some v)))) ∧
    (∀ v, s.sending = some v → t.sending = none →
      t.outputs = if s.reply = .gone then s.outputs else s.outputs ++ [v])

/-! ## Reset and the invariant -/

/-- R200: what construction leaves, for the words of a program: `PC` 0, `RB` 0, `Running`, `FAULT` `None`,
word `i` at address `i`, every other address unset and reading 0 (advanced) or not existing (simple, where
`N` is the number of words). That `FAULT` is `None` is the spec's decision D24 and that `N` is the number of
words its decision D14; that `RB` is 0 in the simple variant too is log entry 17. -/
def Obligations.ConstructionLeaves : Prop :=
  ∀ (v : Variant) (words : List Int),
    let s := construct v words
    s.variant = v ∧ s.pc = 0 ∧ s.rb = 0 ∧ s.status = .running ∧ s.fault = none ∧
    (∀ (i : Nat) w, words[i]? = some w → s.memRead i = .ok w) ∧
    (∀ x : Int, (x < 0 ∨ (words.length : Int) ≤ x) →
      (v = .advanced → s.memRead x = .ok 0) ∧ (v = .simple → s.memRead x = .error .outOfBounds)) ∧
    (v = .simple → s.n = words.length)

/-- The machine's reset state is the construction of an advanced instance without words (the model's choice,
log entries 2, 3 and 16), and meets the invariant. What the invariant holds is said at
StepKeepsTheInvariant. -/
def Obligations.ResetMeetsTheInvariant : Prop :=
  State.reset = construct .advanced [] ∧ State.reset.Inv

/-- Construction establishes the invariant for every program that the variant can hold (R156, R204). That
`N` is the number of words is the spec's decision D14, that a token outside the range is no word its
decision D16. The invariant holds choices of the model: canonical memory (log entry 1), nothing under way
(log entry 10) and `RB` 0 (log entry 17) in the simple variant, and the bounds of its memory (log entry 20).
-/
def Obligations.ConstructionMeetsTheInvariant : Prop :=
  ∀ (v : Variant) (words : List Int),
    (v = .simple → (words.length : Int) ≤ 2147483647 ∧ ∀ w ∈ words, Word.fits w = true) →
    (construct v words).Inv

/-- Every step keeps the invariant: memory stays canonical; a simple instance's words stay in the 32-bit
range and inside its allocation, its `RB` 0 and its state running or halted (R10, R21, R23, R26, R30); and
while an instance waits for input, `PC` addresses the pending IN and `PEND_DST` is the address that
resolving its destination again gives (R28). The spec's decisions in it: IN latches its destination and
keeps `PC` (D8, in R28), results out of range fault (D13), addresses outside the allocation fault (D14), and
a value from `get_input` is in the range (D15; log entry 11). The model's choices in it: canonical memory
(log entry 1), nothing under way in the simple variant (log entry 10), `RB` held at 0 there (log entry 17),
and the bounds kept in the invariant (log entry 20). -/
def Obligations.StepKeepsTheInvariant : Prop :=
  ∀ s t : State, s.Inv → Machine.step s = .next t → t.Inv

/-! ## The two variants -/

/-- R155 (which the spec derives from R154 and R157), one instruction at a time: wherever the simple variant
completes an instruction, the advanced one from the same state does the same in one command, or in two where
the instruction suspends (IN, OUT), with the same memory, `PC`, halted state, consumed and delivered values.
The form of a blocked step, the response of the last one and the capability's answers are the model's
choices (log entries 4, 9, 10 and 25), and that `PC` of IN advances in part two is the spec's decision D8.
-/
def Obligations.AdvancedRefinesSimple : Prop :=
  ∀ s t : State, s.variant = .simple → Ready s →
    Machine.step s = .next t → t.fault = none → t.response ≠ .blocked →
    ∃ u, Machine.step s.asAdvanced = .next u ∧
      (u = t.asAdvanced ∨
        ∃ d r, Machine.step u = .next { t.asAdvanced with pendDst := d, response := r })

/-- R23: nothing in the simple variant reads `RB`. Changing it changes nothing else of any step. That State
has an `RB` in the simple variant, held at 0, is the model's choice (log entry 17). -/
def Obligations.SimpleVariantIgnoresRb : Prop :=
  ∀ (s : State) (r : Int), s.variant = .simple →
    Machine.step (s.setRb r) = mapNext (fun t => t.setRb r) (Machine.step s)

/-- R28 and the spec's decision D24, U17: `PEND_DST` is never read before it is written. In any state but
`WaitingForInput`, changing it changes nothing of a step but `PEND_DST` itself. -/
def Obligations.PendDstIsReadOnlyWhileWaiting : Prop :=
  ∀ (s t : State) (d : Int), s.status ≠ .waitingForInput → Machine.step s = .next t →
    ∃ e, Machine.step (s.setPendDst d) = .next (t.setPendDst e) ∧
      (t.status = .waitingForInput → e = t.pendDst)

/-! ## Loader -/

/-- R76, R202 and the spec's decision D16 (R203, R204): the program text of any words that the variant
accepts loads to exactly these words. -/
def Obligations.LoadOfRenderedWords : Prop :=
  ∀ (v : Variant) (words : List Int), words ≠ [] → (∀ w ∈ words, Loader.accepts v w = true) →
    Loader.parse v (Loader.render words) = .ok words

/-- R202, R203, the spec's decision D16: a token is, surrounding whitespace removed, an optional `-`
followed by one or more digits; every other token is malformed; its value is the number its digits spell,
leading zeros or not, negated after a `-`. Which characters are white space is log entry 22. -/
def Obligations.TokenGrammar : Prop :=
  (∀ t : List Char,
    (Loader.parseToken t).isSome = true ↔
      ∃ pre body post : List Char, t = pre ++ body ++ post ∧
        (∀ c ∈ pre, Loader.isSpace c = true) ∧ (∀ c ∈ post, Loader.isSpace c = true) ∧
        ∃ ds : List Char, ds ≠ [] ∧ (∀ c ∈ ds, Loader.isDigit c = true) ∧
          (body = ds ∨ body = '-' :: ds)) ∧
  ∀ pre ds post : List Char, ds ≠ [] → (∀ c ∈ ds, Loader.isDigit c = true) →
    (∀ c ∈ pre, Loader.isSpace c = true) → (∀ c ∈ post, Loader.isSpace c = true) →
    Loader.parseToken (pre ++ ds ++ post) = some (decimalValue ds : Int) ∧
    Loader.parseToken (pre ++ ('-' :: ds) ++ post) = some (-(decimalValue ds : Int))

/-- R202, R203, R204, the spec's decision D16: the tokens are the pieces of the text between its commas. A
load fails exactly when some token is malformed or (simple) outside the 32-bit range, always with
`ParseError`; otherwise word `i` is the value of token `i`. Which characters are white space is log entry
22. -/
def Obligations.LoadFailsOnBadTokens : Prop :=
  ∀ (v : Variant) (text : List Char),
    (Loader.splitCommas text ≠ [] ∧ List.intercalate [','] (Loader.splitCommas text) = text ∧
      ∀ tok ∈ Loader.splitCommas text, ',' ∉ tok) ∧
    (Loader.parse v text = .error .parseError ↔
      ∃ tok ∈ Loader.splitCommas text, ∀ w, Loader.parseToken tok = some w → Loader.accepts v w = false) ∧
    (∀ c, Loader.parse v text = .error c → c = .parseError) ∧
    (∀ words, Loader.parse v text = .ok words →
      words.map some = (Loader.splitCommas text).map Loader.parseToken ∧
      ∀ w ∈ words, Loader.accepts v w = true)

/-! ## Several instances -/

/-- R164, R161, R55: a host's command to the instance with index `k` puts that instance's next state there, if
it has one, and leaves every other instance as it is; a clone has its original's memory and registers and
leaves every instance as it is; and so the commands issued to one instance commute with those issued to
another. That an instance may be cloned in any state is the spec's decision D18. The model's choices in it: an
instance without a next state stays as it is (log entry 19), a clone copies the environment and the response
too (log entry 24, and 26 for the response, which the spec leaves open), and a simple instance may be among
them, or any whose call blocks, while the host goes on with the others (log entry 28). -/
def Obligations.CommandsToTwoInstancesCommute : Prop :=
  (∀ (f : List State) (k : Nat),
    (∀ i, i ≠ k → (Fleet.act f k)[i]? = f[i]?) ∧
    (∀ s t, f[k]? = some s → Machine.step s = .next t → (Fleet.act f k)[k]? = some t) ∧
    (∀ s, f[k]? = some s → (∀ t, Machine.step s ≠ .next t) → (Fleet.act f k)[k]? = some s) ∧
    (Fleet.act f k).length = f.length ∧
    (∀ s, f[k]? = some s → Fleet.cloneAt f k = f ++ [s]) ∧
    (f[k]? = none → Fleet.cloneAt f k = f)) ∧
  ∀ (f : List State) (j k : Nat), j ≠ k →
    Fleet.act (Fleet.act f j) k = Fleet.act (Fleet.act f k) j

/-- R190, R191, R192, R193: a worker's turn is a turn of `run` on its own instance. What it has sent, which is
what its instance has delivered in the turn, goes in order behind the values in the inbound channel of its
consumer (the next stage; of the last stage, in a ring, the first), unless the consumer has ended; the last
stage's goes to the terminal channel; every other instance is left as it is. That values sent to a consumer
that has ended are discarded is the spec's decision D21 (`BROKEN_PIPE = discard`, R194). The model's choices in
it: which consumer is gone (one that has ended), a channel without bound, and a worker without a turn that
changes nothing (log entry 19); and a stage that is a simple instance, driven as by `execute` (log entry
27). -/
def Obligations.WorkersShareOnlyChannels : Prop :=
  ∀ (p : Pipeline) (k : Nat),
    (p.work k).stages.length = p.stages.length ∧ (p.work k).ring = p.ring ∧
    (k + 1 < p.stages.length → p.consumerOf k = some (k + 1)) ∧
    (k + 1 = p.stages.length → p.consumerOf k = if p.ring = true then some 0 else none) ∧
    (p.stages[k]? = none → p.work k = p) ∧
    (∀ s, p.stages[k]? = some s → (∀ t, drive s ≠ .next t) → p.work k = p) ∧
    ∀ s t, p.stages[k]? = some s → drive s = .next t →
      t.outputs = s.outputs ++ Pipeline.sent s t ∧
      ((p.work k).terminal =
        if k + 1 = p.stages.length then p.terminal ++ Pipeline.sent s t else p.terminal) ∧
      ∀ j r, (p.stages.set k t)[j]? = some r →
        (p.work k).stages[j]? = some
          (if p.consumerOf k = some j ∧ r.ended = false
            then { r with inputs := r.inputs ++ Pipeline.sent s t } else r)

/-- R193: in a ring the last stage's every value goes both to the first stage's inbound channel and to the
terminal channel. That a first stage that has ended receives nothing is the spec's decision D21
(`BROKEN_PIPE = discard`, R194), with the model's choice that such a stage is a consumer that is gone and that
a channel has no bound (log entry 19). In a ring of one stage the first stage is the last, after its turn.
That a stage may be a simple instance is the model's choice too (log entry 27). -/
def Obligations.LastStageFeedsBothInARing : Prop :=
  ∀ (p : Pipeline) (k : Nat) (first s t r : State), p.ring = true → k + 1 = p.stages.length →
    p.stages[0]? = some first → p.stages[k]? = some s → drive s = .next t →
    r = (if k = 0 then t else first) →
    (p.work k).terminal = p.terminal ++ Pipeline.sent s t ∧
    (r.ended = false → (p.work k).stages[0]? =
      some { r with inputs := r.inputs ++ Pipeline.sent s t }) ∧
    (r.ended = true → (p.work k).stages[0]? = some r)
end

