-- ==== Sys2Proof/Laws/Memory.lean ====
section
/-! SUPPORT. Laws/Memory.lean: reading after writing, and the canonical form of memory. -/

namespace Sys2Proof.Machine.Memory

/-! ## Reading after writing -/

theorem get_erase_same (m : Memory) (a : Int) : (m.erase a).get a = unlisted := by
  induction m with
  | nil => rfl
  | cons c m ih =>
    obtain ⟨k, w⟩ := c
    by_cases h : k = a <;> simp [erase, get, h, ih]

theorem get_erase_ne (m : Memory) {a b : Int} (hab : b ≠ a) : (m.erase a).get b = m.get b := by
  induction m with
  | nil => rfl
  | cons c m ih =>
    obtain ⟨k, w⟩ := c
    by_cases h : k = a
    · subst h; simp [erase, get, ih, Ne.symm hab]
    · simp [erase, get, h, ih]

theorem get_insert_ne (m : Memory) {a b : Int} (v : Int) (hab : b ≠ a) :
    (m.insert a v).get b = m.get b := by
  induction m with
  | nil => simp [insert, get, Ne.symm hab]
  | cons c m ih =>
    obtain ⟨k, w⟩ := c
    by_cases h : a < k <;> simp [insert, get, h, ih, Ne.symm hab]

/-- No entry for the address. -/
def Free (m : Memory) (a : Int) : Prop := ∀ c ∈ m, c.1 ≠ a

theorem free_erase (m : Memory) (a : Int) : (m.erase a).Free a := by
  induction m with
  | nil => intro c hc; cases hc
  | cons c m ih =>
    obtain ⟨k, w⟩ := c
    by_cases h : k = a
    · simpa [erase, h] using ih
    · intro d hd
      simp only [erase, h, if_false, List.mem_cons] at hd
      rcases hd with rfl | hd
      · exact h
      · exact ih d hd

theorem get_insert_same (m : Memory) (a v : Int) (h : m.Free a) : (m.insert a v).get a = v := by
  induction m with
  | nil => simp [insert, get]
  | cons c m ih =>
    obtain ⟨k, w⟩ := c
    have hk : k ≠ a := h _ (List.mem_cons_self ..)
    have ih' := ih fun d hd => h d (List.mem_cons_of_mem _ hd)
    by_cases hlt : a < k <;> simp [insert, get, hlt, hk, ih']

/-- A read after a write to the same address gives the value written (R42, R43). -/
@[simp] theorem get_set_same (m : Memory) (a v : Int) : (m.set a v).get a = v := by
  unfold set
  split
  · next h => rw [get_erase_same, h]
  · exact get_insert_same _ _ _ (free_erase m a)

/-- A write leaves every other address alone. -/
theorem get_set_ne (m : Memory) {a b : Int} (v : Int) (hab : b ≠ a) :
    (m.set a v).get b = m.get b := by
  unfold set
  split
  · exact get_erase_ne m hab
  · rw [get_insert_ne _ _ hab, get_erase_ne m hab]

theorem get_set (m : Memory) (a b v : Int) :
    (m.set a v).get b = if b = a then v else m.get b := by
  split
  · next h => rw [h, get_set_same]
  · next h => exact get_set_ne m v h

/-! ## Where the entries come from -/

theorem mem_erase {m : Memory} {a : Int} {c : Cell} (h : c ∈ m.erase a) : c ∈ m := by
  induction m with
  | nil => exact h
  | cons d m ih =>
    obtain ⟨k, w⟩ := d
    unfold erase at h
    split at h
    · exact List.mem_cons_of_mem _ (ih h)
    · rcases List.mem_cons.mp h with rfl | h
      · exact List.mem_cons_self ..
      · exact List.mem_cons_of_mem _ (ih h)

theorem mem_insert {m : Memory} {a v : Int} {c : Cell} (h : c ∈ m.insert a v) :
    c = (a, v) ∨ c ∈ m := by
  induction m with
  | nil => simpa [insert] using h
  | cons d m ih =>
    obtain ⟨k, w⟩ := d
    unfold insert at h
    split at h
    · simpa using h
    · rcases List.mem_cons.mp h with rfl | h
      · exact .inr (List.mem_cons_self ..)
      · exact (ih h).imp_right (List.mem_cons_of_mem _)

/-- An entry after a write is the written one or was there before. -/
theorem mem_set {m : Memory} {a v : Int} {c : Cell} (h : c ∈ m.set a v) : c = (a, v) ∨ c ∈ m := by
  unfold set at h
  split at h
  · exact .inr (mem_erase h)
  · exact (mem_insert h).imp_right mem_erase

/-! ## The canonical form -/

theorem wf_nil : wf [] := by decide

theorem pairwise_erase {m : Memory} (a : Int) (h : m.Pairwise (fun c d => c.1 < d.1)) :
    (m.erase a).Pairwise (fun c d => c.1 < d.1) := by
  induction m with
  | nil => exact h
  | cons c m ih =>
    obtain ⟨k, w⟩ := c
    rw [List.pairwise_cons] at h
    unfold erase
    split
    · exact ih h.2
    · exact List.pairwise_cons.mpr ⟨fun d hd => h.1 d (mem_erase hd), ih h.2⟩

theorem pairwise_insert {m : Memory} {a : Int} (v : Int) (hf : m.Free a)
    (h : m.Pairwise (fun c d => c.1 < d.1)) : (m.insert a v).Pairwise (fun c d => c.1 < d.1) := by
  induction m with
  | nil => simp [insert]
  | cons c m ih =>
    obtain ⟨k, w⟩ := c
    have hc := List.pairwise_cons.mp h
    have hk : k ≠ a := hf _ (List.mem_cons_self ..)
    unfold insert
    split
    · next hlt =>
      refine List.pairwise_cons.mpr ⟨fun d hd => ?_, h⟩
      rcases List.mem_cons.mp hd with rfl | hd
      · exact hlt
      · exact lt_trans hlt (hc.1 d hd)
    · next hlt =>
      refine List.pairwise_cons.mpr
        ⟨fun d hd => ?_, ih (fun d hd => hf d (List.mem_cons_of_mem _ hd)) hc.2⟩
      rcases mem_insert hd with rfl | hd
      · exact lt_of_le_of_ne (not_lt.mp hlt) hk
      · exact hc.1 d hd

/-- A write keeps the canonical form. -/
theorem wf_set {m : Memory} (a v : Int) (h : m.wf) : (m.set a v).wf := by
  unfold set
  split
  · exact ⟨pairwise_erase a h.1, fun c hc => h.2 c (mem_erase hc)⟩
  · next hv =>
    refine ⟨pairwise_insert v (free_erase m a) (pairwise_erase a h.1), fun c hc => ?_⟩
    rcases mem_insert hc with rfl | hc
    · exact hv
    · exact h.2 c (mem_erase hc)

/-- A run of writes keeps the canonical form. -/
theorem wf_setMany {m : Memory} (a : Int) (vs : List Int) (h : m.wf) : (m.setMany a vs).wf := by
  induction vs generalizing m a with
  | nil => exact h
  | cons v vs ih => exact ih (a + 1) (wf_set a v h)

end Sys2Proof.Machine.Memory
end

