-- ==== Sys2Proof/Laws/State.lean ====
section
/-! SUPPORT. Laws/State.lean: every field after every update of the state, so that no later proof unfolds a
record update. -/

namespace Sys2Proof.Machine.State

section setPc
variable (s : State) (v : Int)
@[simp] theorem setPc_variant : (s.setPc v).variant = s.variant := rfl
@[simp] theorem setPc_n : (s.setPc v).n = s.n := rfl
@[simp] theorem setPc_pc : (s.setPc v).pc = v := rfl
@[simp] theorem setPc_rb : (s.setPc v).rb = s.rb := rfl
@[simp] theorem setPc_status : (s.setPc v).status = s.status := rfl
@[simp] theorem setPc_pendDst : (s.setPc v).pendDst = s.pendDst := rfl
@[simp] theorem setPc_fault : (s.setPc v).fault = s.fault := rfl
@[simp] theorem setPc_mem : (s.setPc v).mem = s.mem := rfl
@[simp] theorem setPc_response : (s.setPc v).response = s.response := rfl
@[simp] theorem setPc_host : (s.setPc v).host = s.host := rfl
@[simp] theorem setPc_inputs : (s.setPc v).inputs = s.inputs := rfl
@[simp] theorem setPc_consumer : (s.setPc v).consumer = s.consumer := rfl
@[simp] theorem setPc_outputs : (s.setPc v).outputs = s.outputs := rfl
@[simp] theorem setPc_sending : (s.setPc v).sending = s.sending := rfl
@[simp] theorem setPc_stalls : (s.setPc v).stalls = s.stalls := rfl
@[simp] theorem setPc_replies : (s.setPc v).replies = s.replies := rfl
@[simp] theorem setPc_reply : (s.setPc v).reply = s.reply := rfl
@[simp] theorem setPc_supply : (s.setPc v).supply = s.supply := rfl
end setPc

section setRb
variable (s : State) (v : Int)
@[simp] theorem setRb_variant : (s.setRb v).variant = s.variant := rfl
@[simp] theorem setRb_n : (s.setRb v).n = s.n := rfl
@[simp] theorem setRb_pc : (s.setRb v).pc = s.pc := rfl
@[simp] theorem setRb_rb : (s.setRb v).rb = v := rfl
@[simp] theorem setRb_status : (s.setRb v).status = s.status := rfl
@[simp] theorem setRb_pendDst : (s.setRb v).pendDst = s.pendDst := rfl
@[simp] theorem setRb_fault : (s.setRb v).fault = s.fault := rfl
@[simp] theorem setRb_mem : (s.setRb v).mem = s.mem := rfl
@[simp] theorem setRb_response : (s.setRb v).response = s.response := rfl
@[simp] theorem setRb_host : (s.setRb v).host = s.host := rfl
@[simp] theorem setRb_inputs : (s.setRb v).inputs = s.inputs := rfl
@[simp] theorem setRb_consumer : (s.setRb v).consumer = s.consumer := rfl
@[simp] theorem setRb_outputs : (s.setRb v).outputs = s.outputs := rfl
@[simp] theorem setRb_sending : (s.setRb v).sending = s.sending := rfl
@[simp] theorem setRb_stalls : (s.setRb v).stalls = s.stalls := rfl
@[simp] theorem setRb_replies : (s.setRb v).replies = s.replies := rfl
@[simp] theorem setRb_reply : (s.setRb v).reply = s.reply := rfl
@[simp] theorem setRb_supply : (s.setRb v).supply = s.supply := rfl
end setRb

section setStatus
variable (s : State) (v : Status)
@[simp] theorem setStatus_variant : (s.setStatus v).variant = s.variant := rfl
@[simp] theorem setStatus_n : (s.setStatus v).n = s.n := rfl
@[simp] theorem setStatus_pc : (s.setStatus v).pc = s.pc := rfl
@[simp] theorem setStatus_rb : (s.setStatus v).rb = s.rb := rfl
@[simp] theorem setStatus_status : (s.setStatus v).status = v := rfl
@[simp] theorem setStatus_pendDst : (s.setStatus v).pendDst = s.pendDst := rfl
@[simp] theorem setStatus_fault : (s.setStatus v).fault = s.fault := rfl
@[simp] theorem setStatus_mem : (s.setStatus v).mem = s.mem := rfl
@[simp] theorem setStatus_response : (s.setStatus v).response = s.response := rfl
@[simp] theorem setStatus_host : (s.setStatus v).host = s.host := rfl
@[simp] theorem setStatus_inputs : (s.setStatus v).inputs = s.inputs := rfl
@[simp] theorem setStatus_consumer : (s.setStatus v).consumer = s.consumer := rfl
@[simp] theorem setStatus_outputs : (s.setStatus v).outputs = s.outputs := rfl
@[simp] theorem setStatus_sending : (s.setStatus v).sending = s.sending := rfl
@[simp] theorem setStatus_stalls : (s.setStatus v).stalls = s.stalls := rfl
@[simp] theorem setStatus_replies : (s.setStatus v).replies = s.replies := rfl
@[simp] theorem setStatus_reply : (s.setStatus v).reply = s.reply := rfl
@[simp] theorem setStatus_supply : (s.setStatus v).supply = s.supply := rfl
end setStatus

section setPendDst
variable (s : State) (v : Int)
@[simp] theorem setPendDst_variant : (s.setPendDst v).variant = s.variant := rfl
@[simp] theorem setPendDst_n : (s.setPendDst v).n = s.n := rfl
@[simp] theorem setPendDst_pc : (s.setPendDst v).pc = s.pc := rfl
@[simp] theorem setPendDst_rb : (s.setPendDst v).rb = s.rb := rfl
@[simp] theorem setPendDst_status : (s.setPendDst v).status = s.status := rfl
@[simp] theorem setPendDst_pendDst : (s.setPendDst v).pendDst = v := rfl
@[simp] theorem setPendDst_fault : (s.setPendDst v).fault = s.fault := rfl
@[simp] theorem setPendDst_mem : (s.setPendDst v).mem = s.mem := rfl
@[simp] theorem setPendDst_response : (s.setPendDst v).response = s.response := rfl
@[simp] theorem setPendDst_host : (s.setPendDst v).host = s.host := rfl
@[simp] theorem setPendDst_inputs : (s.setPendDst v).inputs = s.inputs := rfl
@[simp] theorem setPendDst_consumer : (s.setPendDst v).consumer = s.consumer := rfl
@[simp] theorem setPendDst_outputs : (s.setPendDst v).outputs = s.outputs := rfl
@[simp] theorem setPendDst_sending : (s.setPendDst v).sending = s.sending := rfl
@[simp] theorem setPendDst_stalls : (s.setPendDst v).stalls = s.stalls := rfl
@[simp] theorem setPendDst_replies : (s.setPendDst v).replies = s.replies := rfl
@[simp] theorem setPendDst_reply : (s.setPendDst v).reply = s.reply := rfl
@[simp] theorem setPendDst_supply : (s.setPendDst v).supply = s.supply := rfl
end setPendDst

section setFault
variable (s : State) (v : Option FaultCode)
@[simp] theorem setFault_variant : (s.setFault v).variant = s.variant := rfl
@[simp] theorem setFault_n : (s.setFault v).n = s.n := rfl
@[simp] theorem setFault_pc : (s.setFault v).pc = s.pc := rfl
@[simp] theorem setFault_rb : (s.setFault v).rb = s.rb := rfl
@[simp] theorem setFault_status : (s.setFault v).status = s.status := rfl
@[simp] theorem setFault_pendDst : (s.setFault v).pendDst = s.pendDst := rfl
@[simp] theorem setFault_fault : (s.setFault v).fault = v := rfl
@[simp] theorem setFault_mem : (s.setFault v).mem = s.mem := rfl
@[simp] theorem setFault_response : (s.setFault v).response = s.response := rfl
@[simp] theorem setFault_host : (s.setFault v).host = s.host := rfl
@[simp] theorem setFault_inputs : (s.setFault v).inputs = s.inputs := rfl
@[simp] theorem setFault_consumer : (s.setFault v).consumer = s.consumer := rfl
@[simp] theorem setFault_outputs : (s.setFault v).outputs = s.outputs := rfl
@[simp] theorem setFault_sending : (s.setFault v).sending = s.sending := rfl
@[simp] theorem setFault_stalls : (s.setFault v).stalls = s.stalls := rfl
@[simp] theorem setFault_replies : (s.setFault v).replies = s.replies := rfl
@[simp] theorem setFault_reply : (s.setFault v).reply = s.reply := rfl
@[simp] theorem setFault_supply : (s.setFault v).supply = s.supply := rfl
end setFault

section setMem
variable (s : State) (v : Memory)
@[simp] theorem setMem_variant : (s.setMem v).variant = s.variant := rfl
@[simp] theorem setMem_n : (s.setMem v).n = s.n := rfl
@[simp] theorem setMem_pc : (s.setMem v).pc = s.pc := rfl
@[simp] theorem setMem_rb : (s.setMem v).rb = s.rb := rfl
@[simp] theorem setMem_status : (s.setMem v).status = s.status := rfl
@[simp] theorem setMem_pendDst : (s.setMem v).pendDst = s.pendDst := rfl
@[simp] theorem setMem_fault : (s.setMem v).fault = s.fault := rfl
@[simp] theorem setMem_mem : (s.setMem v).mem = v := rfl
@[simp] theorem setMem_response : (s.setMem v).response = s.response := rfl
@[simp] theorem setMem_host : (s.setMem v).host = s.host := rfl
@[simp] theorem setMem_inputs : (s.setMem v).inputs = s.inputs := rfl
@[simp] theorem setMem_consumer : (s.setMem v).consumer = s.consumer := rfl
@[simp] theorem setMem_outputs : (s.setMem v).outputs = s.outputs := rfl
@[simp] theorem setMem_sending : (s.setMem v).sending = s.sending := rfl
@[simp] theorem setMem_stalls : (s.setMem v).stalls = s.stalls := rfl
@[simp] theorem setMem_replies : (s.setMem v).replies = s.replies := rfl
@[simp] theorem setMem_reply : (s.setMem v).reply = s.reply := rfl
@[simp] theorem setMem_supply : (s.setMem v).supply = s.supply := rfl
end setMem

section setResponse
variable (s : State) (v : Response)
@[simp] theorem setResponse_variant : (s.setResponse v).variant = s.variant := rfl
@[simp] theorem setResponse_n : (s.setResponse v).n = s.n := rfl
@[simp] theorem setResponse_pc : (s.setResponse v).pc = s.pc := rfl
@[simp] theorem setResponse_rb : (s.setResponse v).rb = s.rb := rfl
@[simp] theorem setResponse_status : (s.setResponse v).status = s.status := rfl
@[simp] theorem setResponse_pendDst : (s.setResponse v).pendDst = s.pendDst := rfl
@[simp] theorem setResponse_fault : (s.setResponse v).fault = s.fault := rfl
@[simp] theorem setResponse_mem : (s.setResponse v).mem = s.mem := rfl
@[simp] theorem setResponse_response : (s.setResponse v).response = v := rfl
@[simp] theorem setResponse_host : (s.setResponse v).host = s.host := rfl
@[simp] theorem setResponse_inputs : (s.setResponse v).inputs = s.inputs := rfl
@[simp] theorem setResponse_consumer : (s.setResponse v).consumer = s.consumer := rfl
@[simp] theorem setResponse_outputs : (s.setResponse v).outputs = s.outputs := rfl
@[simp] theorem setResponse_sending : (s.setResponse v).sending = s.sending := rfl
@[simp] theorem setResponse_stalls : (s.setResponse v).stalls = s.stalls := rfl
@[simp] theorem setResponse_replies : (s.setResponse v).replies = s.replies := rfl
@[simp] theorem setResponse_reply : (s.setResponse v).reply = s.reply := rfl
@[simp] theorem setResponse_supply : (s.setResponse v).supply = s.supply := rfl
end setResponse

section setHost
variable (s : State) (v : List HostAction)
@[simp] theorem setHost_variant : (s.setHost v).variant = s.variant := rfl
@[simp] theorem setHost_n : (s.setHost v).n = s.n := rfl
@[simp] theorem setHost_pc : (s.setHost v).pc = s.pc := rfl
@[simp] theorem setHost_rb : (s.setHost v).rb = s.rb := rfl
@[simp] theorem setHost_status : (s.setHost v).status = s.status := rfl
@[simp] theorem setHost_pendDst : (s.setHost v).pendDst = s.pendDst := rfl
@[simp] theorem setHost_fault : (s.setHost v).fault = s.fault := rfl
@[simp] theorem setHost_mem : (s.setHost v).mem = s.mem := rfl
@[simp] theorem setHost_response : (s.setHost v).response = s.response := rfl
@[simp] theorem setHost_host : (s.setHost v).host = v := rfl
@[simp] theorem setHost_inputs : (s.setHost v).inputs = s.inputs := rfl
@[simp] theorem setHost_consumer : (s.setHost v).consumer = s.consumer := rfl
@[simp] theorem setHost_outputs : (s.setHost v).outputs = s.outputs := rfl
@[simp] theorem setHost_sending : (s.setHost v).sending = s.sending := rfl
@[simp] theorem setHost_stalls : (s.setHost v).stalls = s.stalls := rfl
@[simp] theorem setHost_replies : (s.setHost v).replies = s.replies := rfl
@[simp] theorem setHost_reply : (s.setHost v).reply = s.reply := rfl
@[simp] theorem setHost_supply : (s.setHost v).supply = s.supply := rfl
end setHost

section setInputs
variable (s : State) (v : List Int)
@[simp] theorem setInputs_variant : (s.setInputs v).variant = s.variant := rfl
@[simp] theorem setInputs_n : (s.setInputs v).n = s.n := rfl
@[simp] theorem setInputs_pc : (s.setInputs v).pc = s.pc := rfl
@[simp] theorem setInputs_rb : (s.setInputs v).rb = s.rb := rfl
@[simp] theorem setInputs_status : (s.setInputs v).status = s.status := rfl
@[simp] theorem setInputs_pendDst : (s.setInputs v).pendDst = s.pendDst := rfl
@[simp] theorem setInputs_fault : (s.setInputs v).fault = s.fault := rfl
@[simp] theorem setInputs_mem : (s.setInputs v).mem = s.mem := rfl
@[simp] theorem setInputs_response : (s.setInputs v).response = s.response := rfl
@[simp] theorem setInputs_host : (s.setInputs v).host = s.host := rfl
@[simp] theorem setInputs_inputs : (s.setInputs v).inputs = v := rfl
@[simp] theorem setInputs_consumer : (s.setInputs v).consumer = s.consumer := rfl
@[simp] theorem setInputs_outputs : (s.setInputs v).outputs = s.outputs := rfl
@[simp] theorem setInputs_sending : (s.setInputs v).sending = s.sending := rfl
@[simp] theorem setInputs_stalls : (s.setInputs v).stalls = s.stalls := rfl
@[simp] theorem setInputs_replies : (s.setInputs v).replies = s.replies := rfl
@[simp] theorem setInputs_reply : (s.setInputs v).reply = s.reply := rfl
end setInputs

section setOutputs
variable (s : State) (v : List Int)
@[simp] theorem setOutputs_variant : (s.setOutputs v).variant = s.variant := rfl
@[simp] theorem setOutputs_n : (s.setOutputs v).n = s.n := rfl
@[simp] theorem setOutputs_pc : (s.setOutputs v).pc = s.pc := rfl
@[simp] theorem setOutputs_rb : (s.setOutputs v).rb = s.rb := rfl
@[simp] theorem setOutputs_status : (s.setOutputs v).status = s.status := rfl
@[simp] theorem setOutputs_pendDst : (s.setOutputs v).pendDst = s.pendDst := rfl
@[simp] theorem setOutputs_fault : (s.setOutputs v).fault = s.fault := rfl
@[simp] theorem setOutputs_mem : (s.setOutputs v).mem = s.mem := rfl
@[simp] theorem setOutputs_response : (s.setOutputs v).response = s.response := rfl
@[simp] theorem setOutputs_host : (s.setOutputs v).host = s.host := rfl
@[simp] theorem setOutputs_inputs : (s.setOutputs v).inputs = s.inputs := rfl
@[simp] theorem setOutputs_consumer : (s.setOutputs v).consumer = s.consumer := rfl
@[simp] theorem setOutputs_outputs : (s.setOutputs v).outputs = v := rfl
@[simp] theorem setOutputs_sending : (s.setOutputs v).sending = s.sending := rfl
@[simp] theorem setOutputs_stalls : (s.setOutputs v).stalls = s.stalls := rfl
@[simp] theorem setOutputs_replies : (s.setOutputs v).replies = s.replies := rfl
@[simp] theorem setOutputs_reply : (s.setOutputs v).reply = s.reply := rfl
@[simp] theorem setOutputs_supply : (s.setOutputs v).supply = s.supply := rfl
end setOutputs

section setSending
variable (s : State) (v : Option Int)
@[simp] theorem setSending_variant : (s.setSending v).variant = s.variant := rfl
@[simp] theorem setSending_n : (s.setSending v).n = s.n := rfl
@[simp] theorem setSending_pc : (s.setSending v).pc = s.pc := rfl
@[simp] theorem setSending_rb : (s.setSending v).rb = s.rb := rfl
@[simp] theorem setSending_status : (s.setSending v).status = s.status := rfl
@[simp] theorem setSending_pendDst : (s.setSending v).pendDst = s.pendDst := rfl
@[simp] theorem setSending_fault : (s.setSending v).fault = s.fault := rfl
@[simp] theorem setSending_mem : (s.setSending v).mem = s.mem := rfl
@[simp] theorem setSending_response : (s.setSending v).response = s.response := rfl
@[simp] theorem setSending_host : (s.setSending v).host = s.host := rfl
@[simp] theorem setSending_inputs : (s.setSending v).inputs = s.inputs := rfl
@[simp] theorem setSending_consumer : (s.setSending v).consumer = s.consumer := rfl
@[simp] theorem setSending_outputs : (s.setSending v).outputs = s.outputs := rfl
@[simp] theorem setSending_sending : (s.setSending v).sending = v := rfl
@[simp] theorem setSending_stalls : (s.setSending v).stalls = s.stalls := rfl
@[simp] theorem setSending_replies : (s.setSending v).replies = s.replies := rfl
@[simp] theorem setSending_reply : (s.setSending v).reply = s.reply := rfl
@[simp] theorem setSending_supply : (s.setSending v).supply = s.supply := rfl
end setSending

section setStalls
variable (s : State) (v : List Bool)
@[simp] theorem setStalls_variant : (s.setStalls v).variant = s.variant := rfl
@[simp] theorem setStalls_n : (s.setStalls v).n = s.n := rfl
@[simp] theorem setStalls_pc : (s.setStalls v).pc = s.pc := rfl
@[simp] theorem setStalls_rb : (s.setStalls v).rb = s.rb := rfl
@[simp] theorem setStalls_status : (s.setStalls v).status = s.status := rfl
@[simp] theorem setStalls_pendDst : (s.setStalls v).pendDst = s.pendDst := rfl
@[simp] theorem setStalls_fault : (s.setStalls v).fault = s.fault := rfl
@[simp] theorem setStalls_mem : (s.setStalls v).mem = s.mem := rfl
@[simp] theorem setStalls_response : (s.setStalls v).response = s.response := rfl
@[simp] theorem setStalls_host : (s.setStalls v).host = s.host := rfl
@[simp] theorem setStalls_inputs : (s.setStalls v).inputs = s.inputs := rfl
@[simp] theorem setStalls_stalls : (s.setStalls v).stalls = v := rfl
@[simp] theorem setStalls_replies : (s.setStalls v).replies = s.replies := rfl
@[simp] theorem setStalls_consumer : (s.setStalls v).consumer = s.consumer := rfl
@[simp] theorem setStalls_outputs : (s.setStalls v).outputs = s.outputs := rfl
@[simp] theorem setStalls_sending : (s.setStalls v).sending = s.sending := rfl
end setStalls

section setReplies
variable (s : State) (v : List Consumer)
@[simp] theorem setReplies_variant : (s.setReplies v).variant = s.variant := rfl
@[simp] theorem setReplies_n : (s.setReplies v).n = s.n := rfl
@[simp] theorem setReplies_pc : (s.setReplies v).pc = s.pc := rfl
@[simp] theorem setReplies_rb : (s.setReplies v).rb = s.rb := rfl
@[simp] theorem setReplies_status : (s.setReplies v).status = s.status := rfl
@[simp] theorem setReplies_pendDst : (s.setReplies v).pendDst = s.pendDst := rfl
@[simp] theorem setReplies_fault : (s.setReplies v).fault = s.fault := rfl
@[simp] theorem setReplies_mem : (s.setReplies v).mem = s.mem := rfl
@[simp] theorem setReplies_response : (s.setReplies v).response = s.response := rfl
@[simp] theorem setReplies_host : (s.setReplies v).host = s.host := rfl
@[simp] theorem setReplies_inputs : (s.setReplies v).inputs = s.inputs := rfl
@[simp] theorem setReplies_stalls : (s.setReplies v).stalls = s.stalls := rfl
@[simp] theorem setReplies_replies : (s.setReplies v).replies = v := rfl
@[simp] theorem setReplies_consumer : (s.setReplies v).consumer = s.consumer := rfl
@[simp] theorem setReplies_outputs : (s.setReplies v).outputs = s.outputs := rfl
@[simp] theorem setReplies_sending : (s.setReplies v).sending = s.sending := rfl
end setReplies

section polled
variable (s : State)
@[simp] theorem polled_variant : s.polled.variant = s.variant := rfl
@[simp] theorem polled_n : s.polled.n = s.n := rfl
@[simp] theorem polled_pc : s.polled.pc = s.pc := rfl
@[simp] theorem polled_rb : s.polled.rb = s.rb := rfl
@[simp] theorem polled_status : s.polled.status = s.status := rfl
@[simp] theorem polled_pendDst : s.polled.pendDst = s.pendDst := rfl
@[simp] theorem polled_fault : s.polled.fault = s.fault := rfl
@[simp] theorem polled_mem : s.polled.mem = s.mem := rfl
@[simp] theorem polled_response : s.polled.response = s.response := rfl
@[simp] theorem polled_host : s.polled.host = s.host := rfl
@[simp] theorem polled_inputs : s.polled.inputs = s.inputs := rfl
@[simp] theorem polled_stalls : s.polled.stalls = s.stalls.tail := rfl
@[simp] theorem polled_replies : s.polled.replies = s.replies := rfl
@[simp] theorem polled_consumer : s.polled.consumer = s.consumer := rfl
@[simp] theorem polled_outputs : s.polled.outputs = s.outputs := rfl
@[simp] theorem polled_sending : s.polled.sending = s.sending := rfl
end polled

section offered
variable (s : State)
@[simp] theorem offered_variant : s.offered.variant = s.variant := rfl
@[simp] theorem offered_n : s.offered.n = s.n := rfl
@[simp] theorem offered_pc : s.offered.pc = s.pc := rfl
@[simp] theorem offered_rb : s.offered.rb = s.rb := rfl
@[simp] theorem offered_status : s.offered.status = s.status := rfl
@[simp] theorem offered_pendDst : s.offered.pendDst = s.pendDst := rfl
@[simp] theorem offered_fault : s.offered.fault = s.fault := rfl
@[simp] theorem offered_mem : s.offered.mem = s.mem := rfl
@[simp] theorem offered_response : s.offered.response = s.response := rfl
@[simp] theorem offered_host : s.offered.host = s.host := rfl
@[simp] theorem offered_inputs : s.offered.inputs = s.inputs := rfl
@[simp] theorem offered_stalls : s.offered.stalls = s.stalls := rfl
@[simp] theorem offered_replies : s.offered.replies = s.replies.tail := rfl
@[simp] theorem offered_consumer : s.offered.consumer = s.consumer := rfl
@[simp] theorem offered_outputs : s.offered.outputs = s.outputs := rfl
@[simp] theorem offered_sending : s.offered.sending = s.sending := rfl
end offered

section advance
variable (s : State) (w : Int)
@[simp] theorem advance_variant : (s.advance w).variant = s.variant := rfl
@[simp] theorem advance_n : (s.advance w).n = s.n := rfl
@[simp] theorem advance_pc : (s.advance w).pc = s.pc + w := rfl
@[simp] theorem advance_rb : (s.advance w).rb = s.rb := rfl
@[simp] theorem advance_status : (s.advance w).status = s.status := rfl
@[simp] theorem advance_pendDst : (s.advance w).pendDst = s.pendDst := rfl
@[simp] theorem advance_fault : (s.advance w).fault = s.fault := rfl
@[simp] theorem advance_mem : (s.advance w).mem = s.mem := rfl
@[simp] theorem advance_response : (s.advance w).response = s.response := rfl
@[simp] theorem advance_host : (s.advance w).host = s.host := rfl
@[simp] theorem advance_inputs : (s.advance w).inputs = s.inputs := rfl
@[simp] theorem advance_consumer : (s.advance w).consumer = s.consumer := rfl
@[simp] theorem advance_outputs : (s.advance w).outputs = s.outputs := rfl
@[simp] theorem advance_sending : (s.advance w).sending = s.sending := rfl
@[simp] theorem advance_stalls : (s.advance w).stalls = s.stalls := rfl
@[simp] theorem advance_replies : (s.advance w).replies = s.replies := rfl
@[simp] theorem advance_reply : (s.advance w).reply = s.reply := rfl
@[simp] theorem advance_supply : (s.advance w).supply = s.supply := rfl
end advance

section enterFault
variable (s : State) (c : FaultCode)
@[simp] theorem enterFault_variant : (s.enterFault c).variant = s.variant := by
  unfold enterFault
  cases s.fault <;> rfl
@[simp] theorem enterFault_n : (s.enterFault c).n = s.n := by
  unfold enterFault
  cases s.fault <;> rfl
@[simp] theorem enterFault_pc : (s.enterFault c).pc = s.pc := by
  unfold enterFault
  cases s.fault <;> rfl
@[simp] theorem enterFault_rb : (s.enterFault c).rb = s.rb := by
  unfold enterFault
  cases s.fault <;> rfl
@[simp] theorem enterFault_status : (s.enterFault c).status = s.status := by
  unfold enterFault
  cases s.fault <;> rfl
@[simp] theorem enterFault_pendDst : (s.enterFault c).pendDst = s.pendDst := by
  unfold enterFault
  cases s.fault <;> rfl
@[simp] theorem enterFault_fault : (s.enterFault c).fault = some (s.fault.getD c) := by
  unfold enterFault
  cases h : s.fault <;> simp [h]
@[simp] theorem enterFault_mem : (s.enterFault c).mem = s.mem := by
  unfold enterFault
  cases s.fault <;> rfl
@[simp] theorem enterFault_response : (s.enterFault c).response = .error c := rfl
@[simp] theorem enterFault_host : (s.enterFault c).host = s.host := by
  unfold enterFault
  cases s.fault <;> rfl
@[simp] theorem enterFault_inputs : (s.enterFault c).inputs = s.inputs := by
  unfold enterFault
  cases s.fault <;> rfl
@[simp] theorem enterFault_consumer : (s.enterFault c).consumer = s.consumer := by
  unfold enterFault
  cases s.fault <;> rfl
@[simp] theorem enterFault_outputs : (s.enterFault c).outputs = s.outputs := by
  unfold enterFault
  cases s.fault <;> rfl
@[simp] theorem enterFault_sending : (s.enterFault c).sending = s.sending := by
  unfold enterFault
  cases s.fault <;> rfl
@[simp] theorem enterFault_stalls : (s.enterFault c).stalls = s.stalls := by
  unfold enterFault
  cases s.fault <;> rfl
@[simp] theorem enterFault_replies : (s.enterFault c).replies = s.replies := by
  unfold enterFault
  cases s.fault <;> rfl
end enterFault

section send
variable (s : State) (v : Int)
@[simp] theorem send_variant : (s.send v).variant = s.variant := by
  unfold send
  split <;> rfl
@[simp] theorem send_n : (s.send v).n = s.n := by
  unfold send
  split <;> rfl
@[simp] theorem send_pc : (s.send v).pc = s.pc := by
  unfold send
  split <;> rfl
@[simp] theorem send_rb : (s.send v).rb = s.rb := by
  unfold send
  split <;> rfl
@[simp] theorem send_status : (s.send v).status = s.status := by
  unfold send
  split <;> rfl
@[simp] theorem send_pendDst : (s.send v).pendDst = s.pendDst := by
  unfold send
  split <;> rfl
@[simp] theorem send_fault : (s.send v).fault = s.fault := by
  unfold send
  split <;> rfl
@[simp] theorem send_mem : (s.send v).mem = s.mem := by
  unfold send
  split <;> rfl
@[simp] theorem send_response : (s.send v).response = s.response := by
  unfold send
  split <;> rfl
@[simp] theorem send_host : (s.send v).host = s.host := by
  unfold send
  split <;> rfl
@[simp] theorem send_inputs : (s.send v).inputs = s.inputs := by
  unfold send
  split <;> rfl
@[simp] theorem send_consumer : (s.send v).consumer = s.consumer := by
  unfold send
  split <;> rfl
theorem send_outputs : (s.send v).outputs = if s.reply = .gone then s.outputs else s.outputs ++ [v] := by
  unfold send
  cases h : s.reply <;> simp
@[simp] theorem send_sending : (s.send v).sending = s.sending := by
  unfold send
  split <;> rfl
@[simp] theorem send_stalls : (s.send v).stalls = s.stalls := by
  unfold send
  split <;> rfl
@[simp] theorem send_replies : (s.send v).replies = s.replies.tail := by
  unfold send
  split <;> rfl
end send

/-- An attempt at `get_input` returns exactly where it does not stall and a value is supplied. -/
theorem supply_some {s : State} {v : Int} {vs : List Int} :
    s.supply = some (v, vs) ↔ s.stalls.headD false = false ∧ s.inputs = v :: vs := by
  unfold supply
  cases s.stalls.headD false <;> cases s.inputs <;> simp

theorem supply_none {s : State} :
    s.supply = none ↔ s.stalls.headD false = true ∨ s.inputs = [] := by
  unfold supply
  cases s.stalls.headD false <;> cases s.inputs <;> simp

/-- Two states with equal fields are equal. -/
@[ext] theorem ext_fields {s t : State}
    (h_variant : s.variant = t.variant)
    (h_n : s.n = t.n)
    (h_pc : s.pc = t.pc)
    (h_rb : s.rb = t.rb)
    (h_status : s.status = t.status)
    (h_pendDst : s.pendDst = t.pendDst)
    (h_fault : s.fault = t.fault)
    (h_mem : s.mem = t.mem)
    (h_response : s.response = t.response)
    (h_host : s.host = t.host)
    (h_inputs : s.inputs = t.inputs)
    (h_stalls : s.stalls = t.stalls)
    (h_replies : s.replies = t.replies)
    (h_consumer : s.consumer = t.consumer)
    (h_outputs : s.outputs = t.outputs)
    (h_sending : s.sending = t.sending)
    : s = t := by
  cases s; cases t; simp_all

end Sys2Proof.Machine.State
end

