-- ==== Sys2Proof/Laws/Ops.lean ====
section
/-! SUPPORT. Laws/Ops.lean: what each shared operation can do, said once. -/

namespace Sys2Proof

/-- The range of the simple variant's words, as inequalities. -/
theorem Word.fits_iff (v : Int) : Word.fits v = true ↔ -2147483648 ≤ v ∧ v ≤ 2147483647 := by
  unfold Word.fits
  rw [Bool.and_eq_true, decide_eq_true_iff, decide_eq_true_iff]
  rfl

end Sys2Proof

namespace Sys2Proof.Machine

namespace State

@[simp] theorem hasAddress_advanced {s : State} (h : s.variant = .advanced) (a : Int) :
    s.hasAddress a = true := by simp [hasAddress, h]

theorem hasAddress_simple {s : State} (h : s.variant = .simple) (a : Int) :
    s.hasAddress a = true ↔ 0 ≤ a ∧ a < (s.n : Int) := by simp [hasAddress, h]

/-- Which addresses exist depends on the variant and the size alone. -/
theorem hasAddress_congr {s t : State} (hv : t.variant = s.variant) (hn : t.n = s.n) (a : Int) :
    t.hasAddress a = s.hasAddress a := by simp [hasAddress, hv, hn]

@[simp] theorem isWord_advanced {s : State} (h : s.variant = .advanced) (v : Int) :
    s.isWord v = true := by simp [isWord, h]

theorem isWord_simple {s : State} (h : s.variant = .simple) (v : Int) :
    s.isWord v = Word.fits v := by simp [isWord, h]

theorem memRead_ok {s : State} {a v : Int} :
    s.memRead a = .ok v ↔ s.hasAddress a = true ∧ v = s.mem.get a := by
  unfold memRead; split <;> rename_i h <;> simp [h, eq_comm (a := v)]

theorem memRead_error {s : State} {a : Int} {c : FaultCode} :
    s.memRead a = .error c ↔ s.hasAddress a = false ∧ c = .outOfBounds := by
  unfold memRead; split <;> rename_i h <;> simp [h, eq_comm (a := c)]

theorem memWrite_ok {s t : State} {a v : Int} :
    s.memWrite a v = .ok t ↔ s.hasAddress a = true ∧ t = s.setMem (s.mem.set a v) := by
  unfold memWrite; split <;> rename_i h <;> simp [h, eq_comm (a := t)]

theorem memWrite_error {s : State} {a v : Int} {c : FaultCode} :
    s.memWrite a v = .error c ↔ s.hasAddress a = false ∧ c = .outOfBounds := by
  unfold memWrite; split <;> rename_i h <;> simp [h, eq_comm (a := c)]

theorem checkAddress_ok {s : State} {a d : Int} :
    s.checkAddress a = .ok d ↔ s.hasAddress a = true ∧ d = a := by
  unfold checkAddress; split <;> rename_i h <;> simp [h, eq_comm (a := d)]

/-- A resolved write address exists (R86), so the later write cannot fault (R45). -/
theorem hasAddress_of_resolveWrite {s : State} {p : Param} {d : Int}
    (h : s.resolveWrite p = .ok d) : s.hasAddress d = true := by
  unfold resolveWrite at h
  split at h
  · obtain ⟨h', rfl⟩ := checkAddress_ok.mp h; exact h'
  · cases h
  · split at h
    · obtain ⟨h', rfl⟩ := checkAddress_ok.mp h; exact h'
    · cases h
  · cases h

/-- A run of words read has at most the length asked for. -/
theorem length_readWords (s : State) (a : Int) (k : Nat) : (s.readWords a k).length ≤ k := by
  induction k generalizing a with
  | zero => simp [readWords]
  | succ k ih =>
    unfold readWords
    split
    · exact Nat.succ_le_succ (ih _)
    · exact Nat.zero_le _

end State

theorem raise_next {s t : State} {c : FaultCode} : raise c s = .next t ↔ t = s.enterFault c := by
  simp [raise, eq_comm]

theorem done_next {s t : State} : done s = .next t ↔ t = s.setResponse .ok := by
  simp [done, eq_comm]

theorem wait_next {s t : State} : wait s = .next t ↔ t = s.setResponse .blocked := by
  simp [wait, eq_comm]

/-- A store to a resolved address always completes. -/
theorem storeAndAdvance_of_hasAddress {s : State} {a : Int} (h : s.hasAddress a = true)
    (v : Int) (w : Int) :
    storeAndAdvance s a v w =
      .next (((s.setMem (s.mem.set a v)).advance w).setResponse .ok) := by
  unfold storeAndAdvance
  rw [State.memWrite_ok.mpr ⟨h, rfl⟩]
  rfl

theorem mapNext_next {f : State → State} {r : Result} {t : State} :
    mapNext f r = .next t ↔ ∃ u, r = .next u ∧ t = f u := by
  cases r <;> simp [mapNext, eq_comm]

/-- What `withRead` can answer: the fault of the resolution, or what follows. -/
theorem withRead_cases {s : State} {p : Param} {k : Int → Result} {r : Result}
    (h : withRead s p k = r) :
    (∃ c, s.resolveRead p = .error c ∧ r = raise c s) ∨
      ∃ v, s.resolveRead p = .ok v ∧ k v = r := by
  unfold withRead at h
  split at h
  · next c hc => exact .inl ⟨c, hc, h.symm⟩
  · next v hv => exact .inr ⟨v, hv, h⟩

/-- What `withWrite` can answer: the fault of the resolution, or what follows. -/
theorem withWrite_cases {s : State} {p : Param} {k : Int → Result} {r : Result}
    (h : withWrite s p k = r) :
    (∃ c, s.resolveWrite p = .error c ∧ r = raise c s) ∨
      ∃ d, s.resolveWrite p = .ok d ∧ k d = r := by
  unfold withWrite at h
  split at h
  · next c hc => exact .inl ⟨c, hc, h.symm⟩
  · next d hd => exact .inr ⟨d, hd, h⟩

/-- What `withResult` can answer: the overflow fault, or what follows. -/
theorem withResult_cases {s : State} {v : Int} {k : Int → Result} {r : Result}
    (h : withResult s v k = r) :
    (s.isWord v = false ∧ r = raise .arithmeticOverflow s) ∨ (s.isWord v = true ∧ k v = r) := by
  unfold withResult at h
  split at h
  · next hv => exact .inr ⟨hv, h⟩
  · next hv => exact .inl ⟨by simpa using hv, h.symm⟩

theorem withRead_ok {s : State} {p : Param} {v : Int} (h : s.resolveRead p = .ok v)
    (k : Int → Result) : withRead s p k = k v := by simp [withRead, h]

theorem withRead_error {s : State} {p : Param} {c : FaultCode} (h : s.resolveRead p = .error c)
    (k : Int → Result) : withRead s p k = raise c s := by simp [withRead, h]

theorem withWrite_ok {s : State} {p : Param} {d : Int} (h : s.resolveWrite p = .ok d)
    (k : Int → Result) : withWrite s p k = k d := by simp [withWrite, h]

theorem withWrite_error {s : State} {p : Param} {c : FaultCode} (h : s.resolveWrite p = .error c)
    (k : Int → Result) : withWrite s p k = raise c s := by simp [withWrite, h]

theorem withResult_ok {s : State} {v : Int} (h : s.isWord v = true) (k : Int → Result) :
    withResult s v k = k v := by simp [withResult, h]

theorem withResult_error {s : State} {v : Int} (h : s.isWord v = false) (k : Int → Result) :
    withResult s v k = raise .arithmeticOverflow s := by simp [withResult, h]

end Sys2Proof.Machine
end

