-- ==== Sys2Proof/Laws/Exec.lean ====
section
/-! SUPPORT. Laws/Exec.lean: what an instruction can do, said once for each meaning, and the one inversion
that covers them all. -/

namespace Sys2Proof.Machine

/-- The state after a store of `v` at `a` by an instruction of the given width. -/
def State.stored (s : State) (a v : Int) (w : Int) : State :=
  ((s.setMem (s.mem.set a v)).advance w).setResponse .ok

/-- Three parameters and a store: the shape that ADD, MUL, LT and EQ share. -/
theorem binary_next {s t : State} {a b dst : Param} {f : Int → Int → Int} {guard : Bool}
    (h : (withRead s a fun x => withRead s b fun y => withWrite s dst fun d =>
      if guard then withResult s (f x y) fun r => storeAndAdvance s d r 4
      else storeAndAdvance s d (f x y) 4) = .next t) :
    (∃ c, t = s.enterFault c) ∨
      ∃ x y d, s.resolveRead a = .ok x ∧ s.resolveRead b = .ok y ∧ s.resolveWrite dst = .ok d ∧
        (guard = true → s.isWord (f x y) = true) ∧ t = s.stored d (f x y) 4 := by
  obtain ⟨c, -, hc⟩ | ⟨x, hx, h⟩ := withRead_cases h
  · exact .inl ⟨c, raise_next.mp hc.symm⟩
  obtain ⟨c, -, hc⟩ | ⟨y, hy, h⟩ := withRead_cases h
  · exact .inl ⟨c, raise_next.mp hc.symm⟩
  obtain ⟨c, -, hc⟩ | ⟨d, hd, h⟩ := withWrite_cases h
  · exact .inl ⟨c, raise_next.mp hc.symm⟩
  have hs := fun v => storeAndAdvance_of_hasAddress (State.hasAddress_of_resolveWrite hd) v 4
  cases guard with
  | false =>
    simp only [Bool.false_eq_true, if_false, hs, Host.Outcome.next.injEq] at h
    exact .inr ⟨x, y, d, hx, hy, hd, by simp, h.symm⟩
  | true =>
    simp only [if_true] at h
    obtain ⟨-, hc⟩ | ⟨hw, h⟩ := withResult_cases h
    · exact .inl ⟨_, raise_next.mp hc.symm⟩
    · rw [hs, Host.Outcome.next.injEq] at h
      exact .inr ⟨x, y, d, hx, hy, hd, fun _ => hw, h.symm⟩

theorem execAdd_next {s t : State} {a b dst : Param} (h : execAdd a b dst s = .next t) :
    (∃ c, t = s.enterFault c) ∨
      ∃ x y d, s.resolveRead a = .ok x ∧ s.resolveRead b = .ok y ∧ s.resolveWrite dst = .ok d ∧
        s.isWord (x + y) = true ∧ t = s.stored d (x + y) 4 := by
  obtain h | ⟨x, y, d, hx, hy, hd, hw, ht⟩ :=
    binary_next (f := fun x y => x + y) (guard := true) (by simpa [execAdd] using h)
  · exact .inl h
  · exact .inr ⟨x, y, d, hx, hy, hd, hw rfl, ht⟩

theorem execMul_next {s t : State} {a b dst : Param} (h : execMul a b dst s = .next t) :
    (∃ c, t = s.enterFault c) ∨
      ∃ x y d, s.resolveRead a = .ok x ∧ s.resolveRead b = .ok y ∧ s.resolveWrite dst = .ok d ∧
        s.isWord (x * y) = true ∧ t = s.stored d (x * y) 4 := by
  obtain h | ⟨x, y, d, hx, hy, hd, hw, ht⟩ :=
    binary_next (f := fun x y => x * y) (guard := true) (by simpa [execMul] using h)
  · exact .inl h
  · exact .inr ⟨x, y, d, hx, hy, hd, hw rfl, ht⟩

theorem execLt_next {s t : State} {a b dst : Param} (h : execLt a b dst s = .next t) :
    (∃ c, t = s.enterFault c) ∨
      ∃ x y d, s.resolveRead a = .ok x ∧ s.resolveRead b = .ok y ∧ s.resolveWrite dst = .ok d ∧
        t = s.stored d (boolWord (decide (x < y))) 4 := by
  obtain h | ⟨x, y, d, hx, hy, hd, -, ht⟩ :=
    binary_next (f := fun x y => boolWord (decide (x < y))) (guard := false) (by simpa [execLt] using h)
  · exact .inl h
  · exact .inr ⟨x, y, d, hx, hy, hd, ht⟩

theorem execEq_next {s t : State} {a b dst : Param} (h : execEq a b dst s = .next t) :
    (∃ c, t = s.enterFault c) ∨
      ∃ x y d, s.resolveRead a = .ok x ∧ s.resolveRead b = .ok y ∧ s.resolveWrite dst = .ok d ∧
        t = s.stored d (boolWord (decide (x = y))) 4 := by
  obtain h | ⟨x, y, d, hx, hy, hd, -, ht⟩ :=
    binary_next (f := fun x y => boolWord (decide (x = y))) (guard := false) (by simpa [execEq] using h)
  · exact .inl h
  · exact .inr ⟨x, y, d, hx, hy, hd, ht⟩

theorem execJt_next {s t : State} {a b : Param} (h : execJt a b s = .next t) :
    (∃ c, t = s.enterFault c) ∨
      ∃ x y, s.resolveRead a = .ok x ∧ s.resolveRead b = .ok y ∧
        t = (if x ≠ 0 then s.setPc y else s.advance 3).setResponse .ok := by
  obtain ⟨c, -, hc⟩ | ⟨x, hx, h⟩ := withRead_cases h
  · exact .inl ⟨c, raise_next.mp hc.symm⟩
  obtain ⟨c, -, hc⟩ | ⟨y, hy, h⟩ := withRead_cases h
  · exact .inl ⟨c, raise_next.mp hc.symm⟩
  exact .inr ⟨x, y, hx, hy, done_next.mp h⟩

theorem execJf_next {s t : State} {a b : Param} (h : execJf a b s = .next t) :
    (∃ c, t = s.enterFault c) ∨
      ∃ x y, s.resolveRead a = .ok x ∧ s.resolveRead b = .ok y ∧
        t = (if x = 0 then s.setPc y else s.advance 3).setResponse .ok := by
  obtain ⟨c, -, hc⟩ | ⟨x, hx, h⟩ := withRead_cases h
  · exact .inl ⟨c, raise_next.mp hc.symm⟩
  obtain ⟨c, -, hc⟩ | ⟨y, hy, h⟩ := withRead_cases h
  · exact .inl ⟨c, raise_next.mp hc.symm⟩
  exact .inr ⟨x, y, hx, hy, done_next.mp h⟩

theorem execInp_next {s t : State} {dst : Param} (h : execInp dst s = .next t) :
    (∃ c, t = s.enterFault c) ∨
      ∃ d, s.resolveWrite dst = .ok d ∧
        ((s.variant = .advanced ∧
            t = ((s.setPendDst d).setStatus .waitingForInput).setResponse .ok) ∨
          (s.variant = .simple ∧ s.supply = none ∧ t = s.polled.setResponse .blocked) ∨
          ∃ v vs, s.variant = .simple ∧ s.supply = some (v, vs) ∧ s.isWord v = true ∧
            t = (s.polled.setInputs vs).stored d v 2) := by
  obtain ⟨c, -, hc⟩ | ⟨d, hd, h⟩ := withWrite_cases h
  · exact .inl ⟨c, raise_next.mp hc.symm⟩
  refine .inr ⟨d, hd, ?_⟩
  split at h
  · next hv =>
    unfold inputInline at h
    split at h
    · next hi => exact .inr (.inl ⟨hv, hi, wait_next.mp h⟩)
    · next v vs hi =>
      split at h
      · next hw =>
        rw [storeAndAdvance_of_hasAddress, Host.Outcome.next.injEq] at h
        · exact .inr (.inr ⟨v, vs, hv, hi, hw, h.symm⟩)
        · exact (State.hasAddress_congr (s := s) (t := s.polled.setInputs vs) rfl rfl d).trans
            (State.hasAddress_of_resolveWrite hd)
      · cases h
  · next hv => exact .inl ⟨hv, done_next.mp h⟩

theorem execOut_next {s t : State} {a : Param} (h : execOut a s = .next t) :
    (∃ c, t = s.enterFault c) ∨
      ∃ v, s.resolveRead a = .ok v ∧
        ((s.variant = .advanced ∧
            t = ((s.advance 2).setStatus (.waitingToOutput v)).setResponse .ok) ∨
          (s.variant = .simple ∧ s.reply = .blocked ∧ t = s.offered.setResponse .blocked) ∨
          (s.variant = .simple ∧ s.reply ≠ .blocked ∧
            t = ((s.send v).advance 2).setResponse .ok)) := by
  obtain ⟨c, -, hc⟩ | ⟨v, hv, h⟩ := withRead_cases h
  · exact .inl ⟨c, raise_next.mp hc.symm⟩
  refine .inr ⟨v, hv, ?_⟩
  split at h
  · next hs =>
    unfold outputInline at h
    split at h
    · next hc => exact .inr (.inl ⟨hs, hc, wait_next.mp h⟩)
    · next hc => exact .inr (.inr ⟨hs, by simp [hc], done_next.mp h⟩)
    · next hc => exact .inr (.inr ⟨hs, by simp [hc], done_next.mp h⟩)
  · next hs => exact .inl ⟨hs, done_next.mp h⟩

theorem execArb_next {s t : State} {a : Param} (h : execArb a s = .next t) :
    (∃ c, t = s.enterFault c) ∨
      s.variant = .advanced ∧ ∃ x, s.resolveRead a = .ok x ∧
        t = ((s.setRb (s.rb + x)).advance 2).setResponse .ok := by
  unfold execArb at h
  split at h
  · exact .inl ⟨_, raise_next.mp h⟩
  · next hv =>
    obtain ⟨c, -, hc⟩ | ⟨x, hx, h⟩ := withRead_cases h
    · exact .inl ⟨c, raise_next.mp hc.symm⟩
    · exact .inr ⟨hv, x, hx, done_next.mp h⟩

theorem execHalt_next {s t : State} :
    execHalt s = .next t ↔ t = (s.setStatus .halted).setResponse .ok := done_next

/-- What an instruction that completes does to the state, by cases on the instruction: its effect in the
spec's own terms, and nothing else. -/
def Effect (i : Instr) (s t : State) : Prop :=
  match i with
  | .add a b dst => ∃ x y d, s.resolveRead a = .ok x ∧ s.resolveRead b = .ok y ∧
      s.resolveWrite dst = .ok d ∧ s.isWord (x + y) = true ∧ t = s.stored d (x + y) 4
  | .mul a b dst => ∃ x y d, s.resolveRead a = .ok x ∧ s.resolveRead b = .ok y ∧
      s.resolveWrite dst = .ok d ∧ s.isWord (x * y) = true ∧ t = s.stored d (x * y) 4
  | .lt a b dst => ∃ x y d, s.resolveRead a = .ok x ∧ s.resolveRead b = .ok y ∧
      s.resolveWrite dst = .ok d ∧ t = s.stored d (boolWord (decide (x < y))) 4
  | .eq a b dst => ∃ x y d, s.resolveRead a = .ok x ∧ s.resolveRead b = .ok y ∧
      s.resolveWrite dst = .ok d ∧ t = s.stored d (boolWord (decide (x = y))) 4
  | .inp dst => ∃ d, s.resolveWrite dst = .ok d ∧
      ((s.variant = .advanced ∧
          t = ((s.setPendDst d).setStatus .waitingForInput).setResponse .ok) ∨
        (s.variant = .simple ∧ s.supply = none ∧ t = s.polled.setResponse .blocked) ∨
        ∃ v vs, s.variant = .simple ∧ s.supply = some (v, vs) ∧ s.isWord v = true ∧
          t = (s.polled.setInputs vs).stored d v 2)
  | .out a => ∃ v, s.resolveRead a = .ok v ∧
      ((s.variant = .advanced ∧
          t = ((s.advance 2).setStatus (.waitingToOutput v)).setResponse .ok) ∨
        (s.variant = .simple ∧ s.reply = .blocked ∧ t = s.offered.setResponse .blocked) ∨
        (s.variant = .simple ∧ s.reply ≠ .blocked ∧
          t = ((s.send v).advance 2).setResponse .ok))
  | .jt a b => ∃ x y, s.resolveRead a = .ok x ∧ s.resolveRead b = .ok y ∧
      t = (if x ≠ 0 then s.setPc y else s.advance 3).setResponse .ok
  | .jf a b => ∃ x y, s.resolveRead a = .ok x ∧ s.resolveRead b = .ok y ∧
      t = (if x = 0 then s.setPc y else s.advance 3).setResponse .ok
  | .arb a => s.variant = .advanced ∧ ∃ x, s.resolveRead a = .ok x ∧
      t = ((s.setRb (s.rb + x)).advance 2).setResponse .ok
  | .halt => t = (s.setStatus .halted).setResponse .ok

/-- The one inversion of `exec`: a next state is the fault entry's or the instruction's effect. -/
theorem exec_next {i : Instr} {s t : State} (h : exec i s = .next t) :
    (∃ c, t = s.enterFault c) ∨ Effect i s t := by
  cases i with
  | add => exact execAdd_next h
  | mul => exact execMul_next h
  | inp => exact execInp_next h
  | out => exact execOut_next h
  | jt => exact execJt_next h
  | jf => exact execJf_next h
  | lt => exact execLt_next h
  | eq => exact execEq_next h
  | arb => exact execArb_next h
  | halt => exact .inr (execHalt_next.mp h)

end Sys2Proof.Machine
end

