-- ==== Sys2Proof/Laws/PerInstr.lean ====
section
/-! SUPPORT. Laws/PerInstr.lean: the family `Build`: an instruction is built again from its operation and
its parameters, whose number is the operation's. -/

namespace Sys2Proof.Laws.Build

def Statement (i : Instr) : Prop :=
  i.op.build i.params = some i ∧ i.params.length = i.op.arity

theorem add (a b dst : Param) : Statement (.add a b dst) := ⟨rfl, rfl⟩
theorem mul (a b dst : Param) : Statement (.mul a b dst) := ⟨rfl, rfl⟩
theorem inp (dst : Param) : Statement (.inp dst) := ⟨rfl, rfl⟩
theorem out (a : Param) : Statement (.out a) := ⟨rfl, rfl⟩
theorem jt (a b : Param) : Statement (.jt a b) := ⟨rfl, rfl⟩
theorem jf (a b : Param) : Statement (.jf a b) := ⟨rfl, rfl⟩
theorem lt (a b dst : Param) : Statement (.lt a b dst) := ⟨rfl, rfl⟩
theorem eq (a b dst : Param) : Statement (.eq a b dst) := ⟨rfl, rfl⟩
theorem arb (a : Param) : Statement (.arb a) := ⟨rfl, rfl⟩
theorem halt : Statement .halt := ⟨rfl, rfl⟩

end Sys2Proof.Laws.Build
end

