-- ==== Sys2Proof/Laws/Step.lean ====
section
/-! SUPPORT. Laws/Step.lean: what one step can do, said once: `step_move`. -/

namespace Sys2Proof.Machine

namespace State

/-- What a successful fetch has read: an instruction word that selects an operation, and as many words
after it as the operation has parameters. -/
theorem fetch_ok {s : State} {i : Instr} (h : s.fetch = .ok i) :
    ∃ iw o, s.memRead s.pc = .ok iw ∧ opOf s.variant (decodeFields iw).opcode = some o ∧
      o.build (paramsOf o (decodeFields iw) (s.readWords (s.pc + 1) o.arity)) = some i := by
  unfold fetch at h
  split at h
  · cases h
  · next iw hiw =>
    split at h
    · cases h
    · next o ho =>
      refine ⟨iw, o, hiw, ho, ?_⟩
      unfold decode at h
      simp only [ho] at h
      split at h <;> simp_all
      split at * <;> simp_all

theorem fetch_of_words {s : State} {i : Instr} {iw : Int} {o : Op} (hiw : s.memRead s.pc = .ok iw)
    (ho : opOf s.variant (decodeFields iw).opcode = some o)
    (hb : o.build (paramsOf o (decodeFields iw) (s.readWords (s.pc + 1) o.arity)) = some i) :
    s.fetch = .ok i := by
  unfold fetch decode
  simp only [hiw, ho, hb]

end State

/-- One transition of an instance, its own list of host actions left as it is. `driven` is what is known where
`run` or `execute` makes the transition and not the host's hand. -/
inductive Move (driven : Prop) (s : State) : State → Prop where
  /-- A fault is entered, and nothing else happens. -/
  | faults (c : FaultCode) : Move driven s (s.enterFault c)
  /-- The instruction at `PC` has its effect. -/
  | executes (i : Instr) (t : State) (hf : s.fault = none) (hs : s.status = .running)
      (hi : s.fetch = .ok i) (he : Effect i s t) : Move driven s t
  /-- The pending IN receives a value from the host's hand. -/
  | given (v : Int) (hh : ∃ later, s.host = .input v :: later) (hf : s.fault = none)
      (hs : s.status = .waitingForInput) (ha : s.hasAddress s.pendDst = true) :
      Move driven s ((((s.setMem (s.mem.set s.pendDst v)).advance 2).setStatus .running).setResponse .ok)
  /-- The pending IN receives a value from `get_input`. -/
  | receives (v : Int) (vs : List Int) (hd : driven) (hf : s.fault = none)
      (hs : s.status = .waitingForInput) (hv : s.supply = some (v, vs))
      (ha : s.hasAddress s.pendDst = true) :
      Move driven s (((((s.polled.setInputs vs).setMem (s.mem.set s.pendDst v)).advance 2).setStatus
        .running).setResponse .ok)
  /-- A pending IN whose address does not exist faults (no state of a run is such). -/
  | receiveFaults (v : Int) (vs : List Int) (c : FaultCode) (hs : s.status = .waitingForInput)
      (hv : s.supply = some (v, vs)) (ha : s.hasAddress s.pendDst = false) :
      Move driven s ((s.polled.setInputs vs).enterFault c)
  /-- `output()` returns the pending value to the host. -/
  | delivers (v : Int) (hh : ∃ later, s.host = .output :: later) (hf : s.fault = none)
      (hs : s.status = .waitingToOutput v) :
      Move driven s ((s.setStatus .running).setResponse (.value v))
  /-- `run` passes the pending value on to `io.output`, which returns. -/
  | sends (v : Int) (hd : driven) (hf : s.fault = none) (hs : s.status = .waitingToOutput v)
      (hc : s.reply ≠ .blocked) :
      Move driven s (((s.setStatus .running).setResponse (.value v)).send v)
  /-- `run` passes the pending value on to `io.output`, which blocks. -/
  | holds (v : Int) (hd : driven) (hf : s.fault = none) (hs : s.status = .waitingToOutput v)
      (hc : s.reply = .blocked) : Move driven s ((((s.setStatus .running).setResponse
        (.value v)).offered.setSending (some v)).setResponse .blocked)
  /-- `io.output` returns with the value that is under way. -/
  | handsOver (v : Int) (hd : driven) (hf : s.fault = none) (hs : s.status = .running)
      (hv : s.sending = some v) (hc : s.reply ≠ .blocked) :
      Move driven s (((s.send v).setSending none).setResponse .ok)
  /-- `get_input` blocks. -/
  | stalls (hd : driven) (hs : s.status = .waitingForInput) (hv : s.supply = none) :
      Move driven s (s.polled.setResponse .blocked)
  /-- `io.output` blocks on the value that is under way. -/
  | blocks (hd : driven) (v : Int) (hs : s.status = .running) (hv : s.sending = some v)
      (hc : s.reply = .blocked) : Move driven s (s.offered.setResponse .blocked)
  /-- A driver returns. -/
  | answers (r : Response) (hd : driven) (hr : r ≠ .noCommand) : Move driven s (s.setResponse r)
  /-- The host writes a word of memory before the first command. -/
  | writes (a v : Int) (hh : ∃ later, s.host = .write a v :: later)
      (hu : s.untouched = true) (hw : s.isWord v = true)
      (ha : s.hasAddress a = true) : Move driven s (s.setMem (s.mem.set a v))

variable {d : Prop} {s t : State}

theorem cmdStep_move (h : cmdStep s = .next t) : Move d s t := by
  unfold cmdStep at h
  split at h
  · next hf hs =>
    unfold execOne at h
    split at h
    · rw [raise_next.mp h]; exact .faults _
    · next i hi =>
      obtain ⟨c, rfl⟩ | he := exec_next h
      · exact .faults c
      · exact .executes i t hf hs hi he
  · rw [raise_next.mp h]; exact .faults _

/-- What `input(value)` can do. -/
theorem cmdInput_next {v : Int} (h : cmdInput v s = .next t) :
    (∃ c, t = s.enterFault c ∧ (s.status = .waitingForInput → s.fault = none →
      s.hasAddress s.pendDst = false)) ∨
    (s.fault = none ∧ s.status = .waitingForInput ∧ s.hasAddress s.pendDst = true ∧
      t = (((s.setMem (s.mem.set s.pendDst v)).advance 2).setStatus .running).setResponse .ok) := by
  unfold cmdInput at h
  split at h
  · next hf hs =>
    split at h
    · next c hc => exact .inl ⟨c, raise_next.mp h, fun _ _ => (State.memWrite_error.mp hc).1⟩
    · next u hu =>
      obtain ⟨ha, rfl⟩ := State.memWrite_ok.mp hu
      exact .inr ⟨hf, hs, ha, done_next.mp h⟩
  · next hn => exact .inl ⟨_, raise_next.mp h, fun hs hf => absurd hs (hn hf)⟩

theorem cmdInput_hand_move {v : Int} {later : List HostAction} (hh : s.host = .input v :: later)
    (h : cmdInput v s = .next t) : Move d s t := by
  obtain ⟨c, rfl, -⟩ | ⟨hf, hs, ha, rfl⟩ := cmdInput_next h
  · exact .faults c
  · exact .given v ⟨later, hh⟩ hf hs ha

theorem cmdInput_run_move {v : Int} {vs : List Int} (hd : d) (hf : s.fault = none)
    (hs : s.status = .waitingForInput) (hv : s.supply = some (v, vs))
    (h : cmdInput v (s.polled.setInputs vs) = .next t) : Move d s t := by
  obtain ⟨c, rfl, ha⟩ | ⟨-, -, ha, rfl⟩ := cmdInput_next h
  · exact .receiveFaults v vs c hs hv (ha hs hf)
  · exact .receives v vs hd hf hs hv ha

theorem cmdOutput_ok {v : Int} (hf : s.fault = none) (hs : s.status = .waitingToOutput v) :
    cmdOutput s = .next ((s.setStatus .running).setResponse (.value v)) := by
  unfold cmdOutput
  simp only [hf, hs]

theorem cmdOutput_move {later : List HostAction} (hh : s.host = .output :: later)
    (h : cmdOutput s = .next t) : Move d s t := by
  unfold cmdOutput at h
  split at h
  · next v hf hs =>
    simp only [Host.Outcome.next.injEq] at h
    exact h ▸ .delivers v ⟨later, hh⟩ hf hs
  · rw [raise_next.mp h]; exact .faults _

theorem deliver_move {v : Int} (hd : d) (hf : s.fault = none) (hs : s.status = .waitingToOutput v)
    (h : deliver v s = .next t) : Move d s t := by
  unfold deliver at h
  simp only [cmdOutput_ok hf hs, mapNext] at h
  split at h
  · next hc =>
    rw [Host.Outcome.next.injEq] at h
    exact h ▸ .holds v hd hf hs hc
  all_goals
    next hc =>
      rw [Host.Outcome.next.injEq] at h
      exact h ▸ .sends v hd hf hs (by simp [hc])

theorem handOver_move {v : Int} (hd : d) (hf : s.fault = none) (hs : s.status = .running)
    (hv : s.sending = some v) (h : handOver v s = .next t) : Move d s t := by
  unfold handOver at h
  split at h
  · next hc => rw [wait_next.mp h]; exact .blocks hd v hs hv hc
  all_goals
    next hc => rw [done_next.mp h]; exact .handsOver v hd hf hs hv (by simp [hc])

theorem turn_move (hd : d) (hf : s.fault = none) (h : turn s = .next t) : Move d s t := by
  unfold turn at h
  split at h
  · next hs =>
    split at h
    · exact cmdStep_move h
    · next v hv => exact handOver_move hd hf hs hv h
  · next hs =>
    split at h
    · next hv => rw [wait_next.mp h]; exact .stalls hd hs hv
    · next v vs hv => exact cmdInput_run_move hd hf hs hv h
  · next v hs => exact deliver_move hd hf hs h
  · rw [done_next.mp h]; exact .answers _ hd (by simp)

theorem drive_move (hd : d) (h : drive s = .next t) : Move d s t := by
  unfold drive at h
  split at h
  · cases h
  · next hf => exact turn_move hd hf h

theorem cmdRun_move (hd : d) (h : cmdRun s = .next t) : Move d s t := by
  unfold cmdRun at h
  split at h
  · simp only [Host.Outcome.next.injEq] at h
    exact h ▸ .answers _ hd (by simp)
  · next hf => exact turn_move hd hf h

theorem hostWrite_move {a v : Int} {later : List HostAction} (hh : s.host = .write a v :: later)
    (h : hostWrite a v s = .next t) : Move d s t := by
  unfold hostWrite at h
  split at h
  · cases h
  · next hu =>
    split at h
    · next hw =>
      split at h
      · cases h
      · next u hwr =>
        obtain ⟨ha, rfl⟩ := State.memWrite_ok.mp hwr
        simp only [Host.Outcome.next.injEq] at h
        exact h ▸ .writes a v ⟨later, hh⟩ (by simpa using hu) hw ha
    · cases h

/-- Taking an entry off the host's list, or not, is the only thing that follows a move. -/
theorem popped_move {r : Result} {f : State → State} (hr : ∀ u, r = .next u → Move d s u)
    (hf : ∀ u, ∃ l, f u = u.setHost l) (h : mapNext f r = .next t) :
    ∃ u l, Move d s u ∧ t = u.setHost l := by
  obtain ⟨u, hu, rfl⟩ := mapNext_next.mp h
  obtain ⟨l, hl⟩ := hf u
  exact ⟨u, l, hr u hu, hl⟩

theorem popUnlessBlocked_eq (rest : List HostAction) (u : State) :
    ∃ l, popUnlessBlocked rest u = u.setHost l := by
  unfold popUnlessBlocked
  split
  · exact ⟨u.host, rfl⟩
  · exact ⟨rest, rfl⟩

theorem popWhenEnded_eq (rest : List HostAction) (u : State) :
    ∃ l, popWhenEnded rest u = u.setHost l := by
  unfold popWhenEnded
  split
  · exact ⟨rest, rfl⟩
  · exact ⟨u.host, rfl⟩

/-- The one inversion of `step`: a next state is a move's, but for the host's list. -/
theorem step_move (h : step s = .next t) : ∃ u l, Move s.LeftToRun s u ∧ t = u.setHost l := by
  unfold step hostTurn at h
  split at h
  · next hh => exact ⟨t, t.host, drive_move (.inl hh) h, rfl⟩
  · exact popped_move (fun _ => cmdStep_move) (popUnlessBlocked_eq _) h
  · next hh => exact popped_move (fun _ => cmdInput_hand_move hh) (popUnlessBlocked_eq _) h
  · next hh => exact popped_move (fun _ => cmdOutput_move hh) (popUnlessBlocked_eq _) h
  · next hh =>
    split at h
    · exact popped_move (fun _ => cmdRun_move (.inr ⟨_, hh⟩)) (popWhenEnded_eq _) h
    · cases h
  · split at h
    · exact popped_move (fun _ => cmdStep_move) (popWhenEnded_eq _) h
    · cases h
  · next hh => exact popped_move (fun _ => hostWrite_move hh) (fun u => ⟨_, rfl⟩) h

end Sys2Proof.Machine
end

