-- ==== Sys2Proof/Tests/Slice0.lean ====
section
/-! SUPPORT. Tests/Slice0.lean: small tests, each about one decoding or one transition. The expected results
are the spec's own vectors V<n> of 95_test_vectors.md or hand calculation from the cited rule. The theorems
named witness_<Name> show that the hypotheses of obligation <Name> can be met, clause by clause. -/

namespace Sys2Proof.Tests

open Sys2Proof.Machine

/-! ## Helpers -/

def pos (w : Int) : Param := ⟨.position, w⟩
def imm (w : Int) : Param := ⟨.immediate, w⟩
def rel (w : Int) : Param := ⟨.relative, w⟩
def bad (w : Int) : Param := ⟨.reserved 0, w⟩

def adv (words : List Int) : State := construct .advanced words
def sim (words : List Int) : State := construct .simple words

/-- Something of the next state. -/
def look {α : Type} (r : Result) (f : State → α) : Option α :=
  match r with
  | .next t => some (f t)
  | .fault _ => none
  | .refused _ => none

/-- One instruction: the word at an address afterwards, `PC`, `FAULT`. -/
def word (a : Int) (s : State) : Option (Option Int × Int × Option FaultCode) :=
  look (step s) (fun t => (t.hostRead a, t.pc, t.fault))

/-- One instruction: `PC`, `STATE`, `FAULT`. -/
def ctl (s : State) : Option (Int × Status × Option FaultCode) :=
  look (step s) (fun t => (t.pc, t.status, t.fault))

/-- The state after a transition, or the state itself. -/
def after (r : Result) (s : State) : State := (look r id).getD s

/-- An advanced instance that waits for the input of the IN at 0. -/
def waitsIn : State := after (step (adv [3, 13, 99])) State.reset
/-- An advanced instance that waits for its output 5 to be taken. -/
def waitsOut : State := after (step (adv [104, 5, 99])) State.reset
/-- A faulted instance. -/
def faulted : State := after (step (adv [55])) State.reset

/-! ## WellFormed: each check refuses an ill-formed term -/

theorem test_wf_accepts : Instr.wellFormed .simple (.add (pos 1) (imm 2) (pos 3)) = true := by decide
theorem test_wf_relative_in_simple : Instr.wellFormed .simple (.out (rel 0)) = false := by decide
theorem test_wf_reserved_digit : Instr.wellFormed .advanced (.out (bad 0)) = false := by decide
theorem test_wf_immediate_target : Instr.wellFormed .advanced (.inp (imm 0)) = false := by decide
theorem test_wf_word_too_large : Instr.wellFormed .simple (.out (imm 2147483648)) = false := by decide
theorem test_wf_arb_in_simple : Instr.wellFormed .simple (.arb (imm 1)) = false := by decide

/-! ## Decoding: words written out from the patterns of R61 and R66 -/

theorem test_decode_add : decode .simple [1001, 4, 3, 4] = .ok (.add (pos 4) (imm 3) (pos 4), []) := by
  decide
theorem test_decode_mul : decode .advanced [21202, 1, 2, 3] = .ok (.mul (rel 1) (imm 2) (rel 3), []) := by
  decide
theorem test_decode_in : decode .advanced [203, 2, 9] = .ok (.inp (rel 2), [9]) := by decide
theorem test_decode_out : decode .simple [7004, 3] = .ok (.out (pos 3), []) := by decide
theorem test_decode_jt : decode .simple [31105, 1, 4] = .ok (.jt (imm 1) (imm 4), []) := by decide
theorem test_decode_jf : decode .simple [1106, 0, 4] = .ok (.jf (imm 0) (imm 4), []) := by decide
theorem test_decode_lt : decode .simple [1107, -3, -4, 5] = .ok (.lt (imm (-3)) (imm (-4)) (pos 5), []) := by
  decide
theorem test_decode_eq : decode .advanced [2208, 5, 6, 7] = .ok (.eq (rel 5) (rel 6) (pos 7), []) := by
  decide
theorem test_decode_arb : decode .advanced [109, -30] = .ok (.arb (imm (-30)), []) := by decide
theorem test_decode_halt : decode .simple [12399, 7] = .ok (.halt, [7]) := by decide
/-- V18, V19. -/
theorem test_decode_negative : decodeFields (-1199) = ⟨-99, -1, -1, 0⟩ := by decide
theorem test_decode_reserved_digit : decode .simple [301, 0, 0, 0] =
    .ok (.add (bad 0) (pos 0) (pos 0), []) := by decide
theorem test_decode_truncated : decode .simple [1002, 4] =
    .error (.truncated [(.read, pos 4)]) := by decide
theorem test_encode : encode (.add (imm 5) (imm 6) (rel 2)) = [21101, 5, 6, 2] := by decide
theorem test_table_word : decodeTableWord 64 (104 + 5 * 2 ^ 32) = some (.out (imm 5)) := by decide

/-! ## One instruction -/

/-- V30, V36. -/
theorem test_add : word 5 (sim [1101, 3, -5, 5, 99, 7]) = some (some (-2), 4, none) := by decide
theorem test_add_overflow : word 0 (sim [1101, 2147483647, 1, 0, 99]) =
    some (some 1101, 0, some .arithmeticOverflow) := by decide
/-- V33, V35. -/
theorem test_mul_exact : word 7 (adv [1102, 34915192, 34915192, 7, 4, 7, 99, 0]) =
    some (some 1219070632396864, 4, none) := by decide
theorem test_mul_lowest : word 0 (sim [1102, -65536, 32768, 0, 99]) =
    some (some (-2147483648), 4, none) := by decide
/-- V40, V43. -/
theorem test_in_suspends : look (step (adv [3, 13, 99])) (fun t => (t.pc, t.status, t.pendDst)) =
    some (0, .waitingForInput, 13) := by decide
theorem test_in_inline : look (step ((sim [3, 0, 99]).setInputs [5, 6]))
    (fun t => (t.hostRead 0, t.pc, t.inputs)) = some (some 5, 2, [6]) := by decide
/-- V41. -/
theorem test_out_suspends : ctl (adv [4, 3, 99, 42]) = some (2, .waitingToOutput 42, none) := by decide
theorem test_out_inline : look (step (sim [4, 3, 99, 42])) (fun t => (t.pc, t.outputs)) =
    some (2, [42]) := by decide
/-- V50, V23. -/
theorem test_jt_taken : ctl (adv [1105, -1, 4, 99]) = some (4, .running, none) := by decide
theorem test_jt_consults_target : ctl (sim [3005, 3, 0, 0, 99]) =
    some (0, .running, some .invalidAddressingMode) := by decide
/-- V54, V53. -/
theorem test_jf_dereferences : ctl (sim [6, 4, 5, 99, 0, 3]) = some (3, .running, none) := by decide
theorem test_jf_not_taken : ctl (adv [1106, 5, 4, 99]) = some (3, .running, none) := by decide
/-- V60, V63. -/
theorem test_lt_signed : word 5 (adv [1107, -3, -4, 5, 99, 9]) = some (some 0, 4, none) := by decide
theorem test_lt_extremes : word 0 (sim [1107, -2147483648, 2147483647, 0, 99]) =
    some (some 1, 4, none) := by decide
/-- V64, V65. -/
theorem test_eq_true : word 7 (sim [1108, -3, -3, 7, 4, 7, 99, 9]) = some (some 1, 4, none) := by decide
theorem test_eq_false : word 7 (sim [8, 5, 6, 7, 99, -3, 4, 9]) = some (some 0, 4, none) := by decide
/-- V72 (its second instruction, by hand from `RB` 7), V70. -/
theorem test_arb_relative : look (step ((adv [209, -7]).setRb 7)) (fun t => (t.rb, t.pc)) =
    some (216, 2) := by decide
theorem test_arb_in_simple : ctl (sim [109, 10, 99]) = some (0, .running, some .invalidOpCode) := by decide
/-- V75, V76. -/
theorem test_halt : ctl (sim [99]) = some (0, .halted, none) := by decide
theorem test_halt_digits : ctl (adv [99999]) = some (0, .halted, none) := by decide

/-! ## Faults and memory -/

/-- V20, V17. -/
theorem test_unset_word : ctl State.reset = some (0, .running, some .invalidOpCode) := by decide
/-- V21, V22. -/
theorem test_immediate_target : word 0 (sim [11101, 1, 2, 0, 99]) =
    some (some 11101, 0, some .invalidWriteTarget) := by decide
theorem test_first_fault_wins : ctl (adv [11301, 1, 2, 0, 99]) =
    some (0, .running, some .invalidAddressingMode) := by decide
/-- The order of R173: in the simple variant parameter 1 fails before digit 1 of parameter 3. -/
theorem test_order_simple : ctl (sim [10001, 9, 0, 0, 99]) = some (0, .running, some .outOfBounds) := by
  decide
/-- V91, V93. -/
theorem test_negative_address : word (-7) (adv [1101, 3, 4, -7]) = some (some 7, 4, none) := by decide
theorem test_parameter_past_the_end : word 0 (sim [1, 0, 0]) = some (some 1, 0, some .outOfBounds) := by
  decide
theorem test_parameter_unset : word 0 (adv [1, 0, 0]) = some (some 2, 4, none) := by decide
theorem test_set_zero_erases : Memory.set [(-1, 5), (3, 7)] 3 0 = [(-1, 5)] := by decide
theorem test_set_sorted : Memory.set [(-1, 5), (3, 7)] 0 2 = [(-1, 5), (0, 2), (3, 7)] := by decide

/-! ## Commands -/

/-- V80. -/
theorem test_input_in_running : look (step ((adv [3, 13, 99]).setHost [.input 5]))
    (fun t => (t.pc, t.status, t.fault, t.hostRead 13, t.host)) =
    some (0, .running, some .statePreconditionViolation, some 0, []) := by decide
/-- V82. -/
theorem test_input_resumes : look (cmdInput 7 (after (step (adv [3, 13, 99])) State.reset))
    (fun t => (t.hostRead 13, t.pc, t.status, t.response)) = some (some 7, 2, .running, .ok) := by decide
/-- V84. -/
theorem test_output_delivers : look (cmdOutput (after (step (adv [104, 5, 99])) State.reset))
    (fun t => (t.pc, t.status, t.response)) = some (2, .running, .value 5) := by decide
/-- V87: the first fault stays, the response is the new error. -/
theorem test_first_fault_sticks : look (cmdStep (after (step (adv [55])) State.reset))
    (fun t => (t.fault, t.response)) =
    some (some .invalidOpCode, .error .statePreconditionViolation) := by decide
/-- R154, R176: a faulted instance that is left to `run` has no next state. -/
theorem test_faulted_driver : (match step ((adv []).setFault (some .invalidOpCode)) with
    | .fault r => decide (r = .stopped .invalidOpCode)
    | .next _ => false
    | .refused _ => false) = true := by decide
/-- R154, R186: a blocking `io.output` keeps the value under way. -/
theorem test_run_output_blocks :
    look (step { (adv []) with status := .waitingToOutput 5, consumer := .blocked })
      (fun t => (t.status, t.sending, t.outputs)) = some (.running, some 5, []) := by decide
/-- R184, R186: `io.output` blocks once and then returns with the value. -/
theorem test_run_output_returns :
    look (step (after (step { waitsOut with replies := [.blocked] }) State.reset))
      (fun t => (t.status, t.sending, t.outputs)) = some (.running, none, [5]) := by decide
/-- R186, R187: a consumer that takes a value and is then gone. -/
theorem test_consumer_goes :
    look (step (after (step { (sim [104, 5, 104, 6]) with replies := [.ready, .gone] }) State.reset))
      (fun t => (t.pc, t.outputs)) = some (4, [5]) := by decide
/-- R184, R186: `get_input` blocks once although a value is supplied, and then returns it. -/
theorem test_input_stalls : look (step { (sim [3, 0, 99]) with inputs := [7], stalls := [true] })
    (fun t => (t.pc, t.inputs, t.response, t.stalls)) = some (0, [7], .blocked, []) := by decide
theorem test_input_returns :
    look (step (after (step { waitsIn with inputs := [7], stalls := [true] }) State.reset))
      (fun t => (t.hostRead 13, t.pc, t.inputs)) = some (some 7, 2, []) := by decide
/-- R205. -/
theorem test_host_write : look (step ((sim [99, 0]).setHost [.write 1 7])) (fun t => (t.mem, t.host)) =
    some ([(0, 99), (1, 7)], []) := by decide
/-- R205 on a clone of a commanded instance (log entry 26). -/
theorem test_host_write_clone : step ((clone waitsIn).2.setHost [.write 1 7]) = .refused .lateHostWrite := rfl
theorem test_host_write_outside : step ((sim [99, 0]).setHost [.write 2 7]) =
    .refused .hostWriteOutside := rfl
theorem test_host_write_not_word : step ((sim [99, 0]).setHost [.write 1 2147483648]) =
    .refused .hostWriteNotWord := rfl
theorem test_run_in_simple : step ((sim [99]).setHost [.run]) = .refused .commandNotInVariant := rfl
theorem test_fetch_word : ctl (State.reset.withFetchWord 64 (104 + 5 * 2 ^ 32)) =
    some (2, .waitingToOutput 5, none) := by decide

/-! ## Loader -/

/-- V101, V102. -/
theorem test_load_whitespace : Loader.parse .simple [' ', '1', ' ', ',', ' ', '-', '2', ' ', ',', '\n', '3',
    '\n'] = .ok [1, -2, 3] := by decide
theorem test_load_zeros : Loader.parse .simple ['0', '0', '7', ',', '-', '0'] = .ok [7, 0] := by decide
/-- V103. -/
theorem test_load_empty_token : Loader.parse .advanced ['1', ',', ',', '2'] = .error .parseError := by decide
theorem test_load_empty : Loader.parse .advanced [] = .error .parseError := by decide
theorem test_load_plus : Loader.parse .advanced ['+', '1'] = .error .parseError := by decide
theorem test_load_inner_space : Loader.parse .advanced ['-', ' ', '1'] = .error .parseError := by decide
/-- V104. -/
theorem test_load_range : Loader.parse .simple ['2', '1', '4', '7', '4', '8', '3', '6', '4', '8'] =
    .error .parseError := by decide
theorem test_load_large : Loader.parse .advanced ['2', '1', '4', '7', '4', '8', '3', '6', '4', '8'] =
    .ok [2147483648] := by decide
theorem test_render : Loader.render [-12, 0] = ['-', '1', '2', ',', '0'] := by decide

/-! ## Several instances -/

/-- A ring of two: the last stage's value goes to the first stage and to the terminal channel (R193). -/
def ring : Pipeline :=
  Pipeline.wire true [(adv [3, 0, 99], []), ((adv [99]).setStatus (.waitingToOutput 5), [])]

theorem test_ring : ((ring.work 1).stages.map State.inputs, (ring.work 1).terminal) =
    ([[5], []], [5]) := by decide
theorem test_deadlock : (Pipeline.wire false
    [((adv []).setStatus .waitingForInput, [])]).deadlocked = true := by decide
/-- A simple stage blocks in its IN on an empty channel, and moves once a value is there (R111, R194; log
entry 27). -/
theorem test_deadlock_simple : (Pipeline.wire false [(sim [3, 0, 99], [])]).deadlocked = true := by decide
theorem test_simple_stage_moves :
    (((Pipeline.wire false [(sim [3, 0, 99], [7])]).work 0).stages.map (fun t => (t.pc, t.inputs))) =
    [(2, [])] := by decide
/-- V88: the clone of a waiting instance does not see the other's value. -/
theorem test_clone : (Fleet.act (Fleet.cloneAt [waitsIn.setInputs [7]] 0) 0).map (fun t => t.hostRead 13) =
    [some 7, some 0] := by decide

/-- A stage that ends its turn with a value for itself (R193). -/
def ringOfOne : Pipeline := Pipeline.wire true [((adv [99]).setStatus (.waitingToOutput 5), [])]

theorem test_ring_of_one : ((ringOfOne.work 0).stages.map State.inputs, (ringOfOne.work 0).terminal) =
    ([[5]], [5]) := by decide

/-! ## Witnesses: the hypotheses of every statement can be met -/

theorem witness_DecodeOfEncodeIsTheInstruction :
    (Instr.arb (bad 0)).op.existsIn .advanced = true ∧ Instr.halt.op.existsIn .simple = true := by decide

theorem witness_FieldsAreDecimalDigits : (0 : Int) ≤ 0 ∧ (0 : Int) ≤ 1000000001 := by decide

theorem witness_NegativeWordsAreIllegal : (-1 : Int) < 0 ∧ (adv [-1]).memRead (adv [-1]).pc = .ok (-1) := by
  decide

theorem witness_IllegalOpcodesFault :
    ((sim [109, 1]).memRead (sim [109, 1]).pc = .ok 109 ∧ ¬ legalOpcode .simple ((109 : Int).tmod 100)) ∧
    ((adv [98]).memRead (adv [98]).pc = .ok 98 ∧ ¬ legalOpcode .advanced ((98 : Int).tmod 100)) ∧
    (State.reset.variant = .advanced ∧ ∀ c ∈ State.reset.mem, c.1 ≠ State.reset.pc) := by
  unfold legalOpcode
  decide

theorem witness_UnusedDigitsAreIgnored :
    (0 : Int) ≤ 7004 ∧ (0 : Int) ≤ 4 ∧ (7004 : Int) % 100 = 4 % 100 ∧
    ∀ o, opOf .simple ((7004 : Int) % 100) = some o → ∀ k : Nat, k < o.arity →
      (7004 : Int) / 10 ^ (k + 2) % 10 = 4 / 10 ^ (k + 2) % 10 := by
  refine ⟨by decide, by decide, by decide, ?_⟩
  intro o ho
  obtain rfl : o = .out := by
    rw [show opOf .simple ((7004 : Int) % 100) = some Op.out from by decide] at ho
    exact (Option.some.inj ho).symm
  decide

theorem witness_SparseMemory : (adv [1]).variant = .advanced ∧ ∀ c ∈ (adv [1]).mem, c.1 ≠ -1 := by decide

theorem witness_DenseMemory : (sim [1, 2]).variant = .simple ∧
    ((0 : Int) ≤ 0 ∧ (0 : Int) < ((sim [1, 2]).n : Int)) ∧
    ((0 : Int) ≤ 1 ∧ (1 : Int) < ((sim [1, 2]).n : Int)) ∧
    ¬ ((0 : Int) ≤ -1 ∧ (-1 : Int) < ((sim [1, 2]).n : Int)) ∧
    ¬ ((0 : Int) ≤ 2 ∧ (2 : Int) < ((sim [1, 2]).n : Int)) := by decide

theorem witness_EqualReadsEqualMemories :
    ∃ m m' : Memory, m.wf ∧ m'.wf ∧ (∀ a, m.get a = m'.get a) ∧ m ≠ [] :=
  ⟨Memory.set [] (-1) 5, [(-1, 5)], by decide, by decide, fun _ => rfl, by decide⟩

theorem witness_ModeDigits : ((-1 : Int) < 0 ∨ (3 : Int) ≤ -1) ∧ ((3 : Int) < 0 ∨ (3 : Int) ≤ 3) ∧
    (modeOf 2).existsIn (sim []).variant = false ∧ (modeOf 9).existsIn (adv []).variant = false := by decide

theorem witness_ReadParameters : (adv []).variant = .advanced ∧ (sim []).variant = .simple := by decide

theorem witness_WriteTargets : (adv []).variant = .advanced ∧ (sim [0, 0]).variant = .simple ∧
    ((0 : Int) ≤ 1 ∧ (1 : Int) < ((sim [0, 0]).n : Int)) ∧
    ¬ ((0 : Int) ≤ 2 ∧ (2 : Int) < ((sim [0, 0]).n : Int)) ∧
    ¬ ((0 : Int) ≤ -1 ∧ (-1 : Int) < ((sim [0, 0]).n : Int)) := by decide

/-- Three parameters that resolve to given values, and one that does not in each place. -/
def OperandsResolve (x y : Int) : Prop := (sim [0]).variant = .simple ∧
    (sim [0]).resolveRead (imm x) = .ok x ∧ (sim [0]).resolveRead (imm y) = .ok y ∧
    (sim [0]).resolveWrite (pos 0) = .ok 0 ∧ (sim [0]).resolveRead (pos 1) = .error .outOfBounds ∧
    (sim [0]).resolveRead (rel 0) = .error .invalidAddressingMode ∧
    (sim [0]).resolveWrite (imm 0) = .error .invalidWriteTarget

theorem operands_resolve (x y : Int) : OperandsResolve x y := ⟨rfl, rfl, rfl, rfl, rfl, rfl, rfl⟩

theorem witness_AddFollowsItsRule : (sim [0]).resolveRead (imm 2147483647) = .ok 2147483647 ∧
    (sim [0]).resolveRead (imm 0) = .ok 0 ∧ (sim [0]).resolveRead (imm 1) = .ok 1 ∧
    (sim [0]).resolveWrite (pos 0) = .ok 0 ∧ (sim [0]).resolveRead (pos 1) = .error .outOfBounds ∧
    (sim [0]).resolveWrite (imm 0) = .error .invalidWriteTarget ∧
    (-2147483648 ≤ (2147483647 : Int) + 0 ∧ (2147483647 : Int) + 0 ≤ 2147483647) ∧
    (2147483647 : Int) + 1 > 2147483647 ∧ (adv [0]).variant = .advanced ∧ (sim [0]).variant = .simple := by
  decide

theorem witness_MulFollowsItsRule : (sim [0]).resolveRead (imm (-65536)) = .ok (-65536) ∧
    (sim [0]).resolveRead (imm 65536) = .ok 65536 ∧ (sim [0]).resolveRead (imm 32768) = .ok 32768 ∧
    (sim [0]).resolveWrite (pos 0) = .ok 0 ∧ (sim [0]).resolveRead (pos 1) = .error .outOfBounds ∧
    (sim [0]).resolveWrite (imm 0) = .error .invalidWriteTarget ∧
    (-2147483648 ≤ (-65536 : Int) * 32768 ∧ (-65536 : Int) * 32768 ≤ 2147483647) ∧
    (65536 : Int) * 32768 > 2147483647 ∧ (adv [0]).variant = .advanced ∧ (sim [0]).variant = .simple := by
  decide

theorem witness_LtFollowsItsRule : OperandsResolve (-3) (-4) := operands_resolve _ _
theorem witness_EqFollowsItsRule : OperandsResolve (-3) (-3) := operands_resolve _ _
theorem witness_JtFollowsItsRule : OperandsResolve (-1) 0 := operands_resolve _ _
theorem witness_JfFollowsItsRule : OperandsResolve 0 (-1) := operands_resolve _ _

theorem witness_InSuspendsAndResumes : (adv []).variant = .advanced ∧ (adv []).resolveWrite (pos (-1)) = .ok (-1) ∧
    (adv []).resolveWrite (imm 0) = .error .invalidWriteTarget ∧
    waitsIn.variant = .advanced ∧ waitsIn.fault = none ∧ waitsIn.status = .waitingForInput := by decide

theorem witness_InReadsInline : (sim [0]).variant = .simple ∧ (sim [0]).resolveWrite (pos 0) = .ok 0 ∧
    (sim [0]).stalls.headD false = false ∧ ((sim [0]).setStalls [false]).stalls.headD false = false ∧
    ((sim [0]).setStalls [true]).stalls.headD false = true ∧
    ((sim [0]).setInputs [2147483648, 5]).inputs = 2147483648 :: [5] ∧ (sim [0]).inputs = [] ∧
    Word.fits 2147483647 = true ∧ Word.fits 2147483648 = false ∧
    (sim [0]).resolveWrite (pos 1) = .error .outOfBounds := by decide

theorem witness_OutSuspendsAndDelivers : (adv [7]).variant = .advanced ∧ (adv [7]).resolveRead (pos 0) = .ok 7 ∧
    (adv [7]).resolveRead (bad 0) = .error .invalidAddressingMode ∧
    waitsOut.fault = none ∧ waitsOut.status = .waitingToOutput 5 := by decide

theorem witness_OutWritesInline : (sim [7]).variant = .simple ∧ (sim [7]).resolveRead (pos 0) = .ok 7 ∧
    (sim [7]).replies.headD (sim [7]).consumer = .ready ∧
    ((sim [7]).setReplies [.gone]).replies.headD (sim [7]).consumer = .gone ∧
    ((sim [7]).setReplies [.blocked, .gone]).replies.headD (sim [7]).consumer = .blocked ∧
    (sim [7]).resolveRead (pos 1) = .error .outOfBounds := by decide

theorem witness_ArbFollowsItsRule : (adv [9]).variant = .advanced ∧ (adv [9]).resolveRead (pos 0) = .ok 9 ∧
    (adv [9]).resolveRead (bad 0) = .error .invalidAddressingMode ∧ (sim [9]).variant = .simple ∧
    (sim [9]).memRead (sim [9]).pc = .ok 9 ∧ (9 : Int).tmod 100 = 9 := by decide

theorem witness_HaltFollowsItsRule : (sim [12399]).memRead (sim [12399]).pc = .ok 12399 ∧
    (12399 : Int).tmod 100 = 99 := by decide

theorem witness_FrameOfTheStores : ∃ t, exec (.mul (imm 2) (imm 3) (pos 0)) (sim [0]) = .next t :=
  ⟨_, rfl⟩
theorem witness_FrameOfTheOthers : (∃ t, exec (.out (imm 2)) (sim [0]) = .next t) ∧
    (∃ t, exec (.arb (imm 2)) (adv [0]) = .next t) ∧ ∃ t, exec .halt (adv [0]) = .next t :=
  ⟨⟨_, rfl⟩, ⟨_, rfl⟩, ⟨_, rfl⟩⟩
theorem witness_FrameOfIn : (∃ t, exec (.inp (pos 0)) (adv []) = .next t) ∧
    ∃ t, exec (.inp (pos 0)) ((sim [0]).setInputs [5]) = .next t := ⟨⟨_, rfl⟩, ⟨_, rfl⟩⟩

theorem witness_FaultEntry : (adv []).fault = none ∧ faulted.fault = some .invalidOpCode := by decide
theorem witness_FaultsArePrecise : ∃ t, step (adv [55]) = .next t ∧ t.fault ≠ (adv [55]).fault :=
  ⟨_, rfl, by decide⟩
theorem witness_FaultIsSticky : (faulted.setHost [.step]).fault = some .invalidOpCode ∧
    ∃ t, step (faulted.setHost [.step]) = .next t := ⟨rfl, _, rfl⟩
theorem witness_FaultedRefusesEveryCommand : faulted.fault = some .invalidOpCode ∧ faulted.host = [] ∧
    ((sim []).setFault (some .outOfBounds)).fault = some .outOfBounds ∧ (sim []).variant = .simple ∧
    ((sim []).setHost [.execute]).host = [.execute] := by decide
theorem witness_ImmediateDestinationsFault : (adv [1]).resolveRead (imm 1) = .ok 1 ∧
    (adv [1]).resolveRead (pos 0) = .ok 1 := by decide

theorem witness_StepRunsTheDecodedInstruction : (adv [104, 5]).fault = none ∧
    (adv [104, 5]).status = .running ∧ (adv [104, 5]).host = [] ∧ (adv [104, 5]).sending = none ∧
    (∀ k : Nat, k ≤ 1 → ∃ w, [104, 5][k]? = some w ∧
      (adv [104, 5]).memRead ((adv [104, 5]).pc + k) = .ok w) ∧
    decode .advanced [104, 5] = .ok (.out (imm 5), []) := by
  refine ⟨rfl, rfl, rfl, rfl, ?_, by decide⟩
  intro k hk
  obtain rfl | rfl : k = 0 ∨ k = 1 := by omega
  · exact ⟨104, rfl, rfl⟩
  · exact ⟨5, rfl, rfl⟩

theorem witness_StepCommand : (adv []).fault = none ∧ (adv []).status = .running ∧ faulted.fault ≠ none ∧
    waitsIn.status ≠ .running := by decide
theorem witness_InputCommand : waitsIn.variant = .advanced ∧ waitsIn.fault = none ∧
    waitsIn.status = .waitingForInput ∧ (adv []).status ≠ .waitingForInput ∧ faulted.fault ≠ none := by decide
theorem witness_OutputCommand : waitsOut.fault = none ∧ waitsOut.status = .waitingToOutput 5 ∧
    faulted.fault ≠ none ∧ ∀ v, (adv []).status ≠ .waitingToOutput v := by
  refine ⟨rfl, rfl, by decide, ?_⟩
  intro v h
  cases h

/-- The host's hand gives the value, or takes it. -/
def given : State := waitsIn.setHost [.input 7]
def taken : State := waitsOut.setHost [.output]

theorem witness_StateTransitions : (∃ t, step (adv [99]) = .next t ∧ (adv [99]).status = .running) ∧
    (∃ t, step (waitsIn.setInputs [7]) = .next t ∧ waitsIn.status = .waitingForInput) ∧
    (∃ t, step given = .next t ∧ given.status = .waitingForInput) ∧
    (∃ t, step waitsOut = .next t ∧ waitsOut.status = .waitingToOutput 5) ∧
    (∃ t, step taken = .next t ∧ taken.status = .waitingToOutput 5) ∧
    (∃ t, step (waitsOut.setReplies [.blocked]) = .next t ∧ t.sending = some 5) ∧
    (∃ t, step ((adv []).setStatus .halted) = .next t) ∧ waitsIn.status ≠ .running ∧
    (adv []).status ≠ .waitingForInput ∧ ∀ v, (adv []).status ≠ .waitingToOutput v :=
  ⟨⟨_, rfl, rfl⟩, ⟨_, rfl, rfl⟩, ⟨_, rfl, rfl⟩, ⟨_, rfl, rfl⟩, ⟨_, rfl, rfl⟩, ⟨_, rfl, rfl⟩, ⟨_, rfl⟩,
    by decide, by decide, fun _ h => by cases h⟩
theorem witness_HaltedIsTerminal : ((adv []).setStatus .halted).status = .halted ∧
    ∃ t, step ((adv []).setStatus .halted) = .next t := ⟨rfl, _, rfl⟩
theorem witness_OnlyArbChangesRb : ∃ t, step (adv [109, 10, 99]) = .next t ∧ t.rb ≠ (adv [109, 10, 99]).rb :=
  ⟨_, rfl, by decide⟩
theorem witness_OnlyTheseWriteMemory :
    (∃ t, step (sim [1101, 3, 4, 0]) = .next t ∧ t.mem.get 0 ≠ (sim [1101, 3, 4, 0]).mem.get 0) ∧
    (∃ t, step (waitsIn.setInputs [7]) = .next t ∧ t.mem.get 13 ≠ waitsIn.mem.get 13) ∧
    ∃ t, step ((adv []).setHost [.write 4 5]) = .next t ∧ t.mem.get 4 ≠ (adv []).mem.get 4 :=
  ⟨⟨_, rfl, by decide⟩, ⟨_, rfl, by decide⟩, ⟨_, rfl, by decide⟩⟩
theorem witness_HostAccessToMemory : ((sim [99]).setHost [.write 0 (-2147483648)]).response = .noCommand ∧
    (sim [99]).fault = none ∧ (sim [99]).status = .running ∧ (0 : Int) < ((sim [99]).n : Int) ∧
    Word.fits (-2147483648) = true ∧ waitsIn.response ≠ .noCommand := by decide
/-- A value is under way to an `io.output` that meets the coming attempts in a given way. -/
def underWay (replies : List Consumer) : State := { (adv []) with sending := some 5, replies := replies }

theorem witness_WaitingChangesNothing : waitsIn.fault = none ∧ waitsIn.host = [] ∧
    waitsIn.status = .waitingForInput ∧ waitsIn.inputs = [] ∧
    (waitsIn.setStalls [true]).stalls.headD false = true ∧
    (underWay [.blocked]).fault = none ∧ (underWay [.blocked]).host = [] ∧
    (underWay [.blocked]).status = .running ∧ (underWay [.blocked]).sending = some 5 ∧
    (underWay [.blocked]).replies.headD (underWay [.blocked]).consumer = .blocked := by decide
theorem witness_RunDrivesTheLoop : waitsIn.variant = .advanced ∧ waitsIn.fault = none ∧ waitsIn.host = [] ∧
    waitsIn.status = .waitingForInput ∧ waitsIn.stalls.headD false = false ∧
    (waitsIn.setInputs [7]).inputs = 7 :: [] ∧
    waitsOut.variant = .advanced ∧ waitsOut.fault = none ∧ waitsOut.host = [] ∧
    waitsOut.status = .waitingToOutput 5 ∧ waitsOut.replies.headD waitsOut.consumer = .ready ∧
    (waitsOut.setReplies [.gone]).replies.headD waitsOut.consumer = .gone ∧
    (waitsOut.setReplies [.blocked]).replies.headD waitsOut.consumer = .blocked ∧
    (adv []).status = .running ∧ (adv []).sending = none ∧ ((adv []).setStatus .halted).status = .halted := by
  decide
theorem witness_RunDrivesTheLoop_underWay : ∀ c : Consumer, (underWay [c]).variant = .advanced ∧
    (underWay [c]).fault = none ∧ (underWay [c]).host = [] ∧ (underWay [c]).status = .running ∧
    (underWay [c]).sending = some 5 ∧ (underWay [c]).replies.headD (underWay [c]).consumer = c :=
  fun _ => ⟨rfl, rfl, rfl, rfl, rfl, rfl⟩
theorem witness_ExecuteRunsToHalt : (sim [99]).variant = .simple ∧
    ((sim [99]).setHost [.execute]).host = .execute :: [] ∧ (sim [99]).fault = none ∧
    (sim [99]).status = .running ∧ ((sim [99]).setStatus .halted).status = .halted ∧
    ∃ t, step ((sim [99]).setHost [.execute]) = .next t ∧ t.ended = true :=
  ⟨rfl, rfl, rfl, rfl, rfl, _, rfl, rfl⟩

theorem reset_inv : State.reset.Inv :=
  ⟨by decide, (fun h => by cases h), (fun h => by cases h)⟩
theorem waitsOut_inv : waitsOut.Inv :=
  ⟨by decide, (fun h => by cases h), (fun h => by cases h)⟩
theorem waitsIn_inv : (waitsIn.setInputs [7]).Inv :=
  ⟨by decide, (fun h => by cases h), fun _ => ⟨pos 13, rfl, rfl⟩⟩
theorem sim_inv : (sim [104, 5, 99]).Inv :=
  ⟨by decide, fun _ => ⟨by decide, by decide, rfl, .inl rfl, rfl, by decide⟩, fun h => by cases h⟩

theorem sim_in_inv : ((sim [3, 0, 99]).setInputs [7]).Inv :=
  ⟨by decide, fun _ => ⟨by decide, by decide, rfl, .inl rfl, rfl, by decide⟩, fun h => by cases h⟩
theorem given_inv : given.Inv :=
  ⟨by decide, (fun h => by cases h), fun _ => ⟨pos 13, rfl, rfl⟩⟩
theorem taken_inv : taken.Inv :=
  ⟨by decide, (fun h => by cases h), (fun h => by cases h)⟩
theorem waitsOut_replies_inv (l : List Consumer) : (waitsOut.setReplies l).Inv :=
  ⟨waitsOut_inv.canonical, (fun h => by cases h), (fun h => by cases h)⟩
theorem underWay_inv (l : List Consumer) : (underWay l).Inv :=
  ⟨⟨.nil, (fun _ h => nomatch h)⟩, (fun h => by cases h), (fun h => by cases h)⟩

/-- One state for each clause: the simple variant. -/
theorem witness_TransfersAreExact :
    (((sim [3, 0, 99]).setInputs [7]).Inv ∧ ∃ t, step ((sim [3, 0, 99]).setInputs [7]) = .next t ∧
      (sim [3, 0, 99]).fetch = .ok (.inp (pos 0)) ∧ t.pc ≠ 0 ∧ t.inputs ≠ [7]) ∧
    ((sim [104, 5, 99]).Inv ∧ ∃ t, step (sim [104, 5, 99]) = .next t ∧
      (sim [104, 5, 99]).fetch = .ok (.out (imm 5)) ∧ t.pc ≠ 0 ∧ t.outputs ≠ []) :=
  ⟨⟨sim_in_inv, _, rfl, rfl, by decide, by decide⟩, ⟨sim_inv, _, rfl, rfl, by decide, by decide⟩⟩
/-- One state for each clause: the advanced variant, by the host's hand, by `run` with each reply of
`io.output`, and with a value under way. -/
theorem witness_TransfersAreExact_advanced :
    ((waitsIn.setInputs [7]).Inv ∧ ∃ t, step (waitsIn.setInputs [7]) = .next t ∧ t.status = .running ∧
      t.inputs ≠ [7]) ∧
    (given.Inv ∧ ∃ t, step given = .next t ∧ t.status = .running) ∧
    (taken.Inv ∧ ∃ t, step taken = .next t ∧ t.status = .running) ∧
    (∀ c, (waitsOut.setReplies [c]).Inv ∧ (waitsOut.setReplies [c]).reply = c ∧
      ∃ t, step (waitsOut.setReplies [c]) = .next t ∧ t.status = .running) ∧
    (∀ c, c ≠ .blocked → (underWay [c]).Inv ∧ (underWay [c]).sending = some 5 ∧
      (underWay [c]).reply = c ∧ ∃ t, step (underWay [c]) = .next t ∧ t.sending = none) := by
  refine ⟨⟨waitsIn_inv, _, rfl, rfl, by decide⟩, ⟨given_inv, _, rfl, rfl⟩, ⟨taken_inv, _, rfl, rfl⟩, ?_, ?_⟩
  · rintro (_ | _ | _) <;> exact ⟨waitsOut_replies_inv _, rfl, _, rfl, rfl⟩
  · rintro (_ | _ | _) h
    · exact ⟨underWay_inv _, rfl, rfl, _, rfl, rfl⟩
    · exact absurd rfl h
    · exact ⟨underWay_inv _, rfl, rfl, _, rfl, rfl⟩

theorem witness_ConstructionLeaves : [7, 8][1]? = some 8 ∧ ((-1 : Int) < 0 ∨ (2 : Int) ≤ -1) ∧
    ((2 : Int) < 0 ∨ (([7, 8] : List Int).length : Int) ≤ 2) := by decide
theorem witness_ConstructionMeetsTheInvariant : (([2147483647, -2147483648] : List Int).length : Int) ≤
    2147483647 ∧ ∀ w ∈ ([2147483647, -2147483648] : List Int), Word.fits w = true := by decide
theorem witness_StepKeepsTheInvariant : (waitsIn.setInputs [7]).Inv ∧
    ∃ t, step (waitsIn.setInputs [7]) = .next t := ⟨waitsIn_inv, _, rfl⟩

theorem witness_AdvancedRefinesSimple : (sim [104, 5, 99]).variant = .simple ∧ Ready (sim [104, 5, 99]) ∧
    ∃ t, step (sim [104, 5, 99]) = .next t ∧ t.fault = none ∧ t.response ≠ .blocked :=
  ⟨rfl, ⟨rfl, rfl, rfl, rfl⟩, _, rfl, rfl, by decide⟩
theorem witness_SimpleVariantIgnoresRb : (sim []).variant = .simple := rfl
theorem witness_PendDstIsReadOnlyWhileWaiting : (adv [3, 13]).status ≠ .waitingForInput ∧
    ∃ t, step (adv [3, 13]) = .next t ∧ t.status = .waitingForInput := ⟨by decide, _, rfl, rfl⟩

theorem witness_LoadOfRenderedWords : ([-2147483648, 0] : List Int) ≠ [] ∧
    ∀ w ∈ ([-2147483648, 0] : List Int), Loader.accepts .simple w = true := by decide
/-- Leading zeros and a `-` before zero, surrounded by whitespace. -/
theorem witness_TokenGrammar : (['0', '7'] : List Char) ≠ [] ∧
    (∀ c ∈ (['0', '7'] : List Char), Loader.isDigit c = true) ∧
    (∀ c ∈ ([' ', '\n'] : List Char), Loader.isSpace c = true) ∧
    Loader.parseToken ([' '] ++ ['0', '7'] ++ ['\n']) = some 7 ∧
    Loader.parseToken ([] ++ ('-' :: ['0']) ++ []) = some 0 ∧ decimalValue ['1', '0', '7'] = 107 :=
  ⟨by decide, by simp [Loader.isDigit], by simp [Loader.isSpace], by decide, by decide, rfl⟩
theorem witness_LoadFailsOnBadTokens : Loader.parse .simple ['x'] = .error .parseError ∧
    Loader.parse .simple ['7', ',', '8'] = .ok [7, 8] := by decide

theorem witness_CommandsToTwoInstancesCommute : (0 : Nat) ≠ 1 ∧ [waitsIn, faulted][0]? = some waitsIn ∧
    (∃ t, step waitsIn = .next t) ∧ [waitsIn, faulted][1]? = some faulted ∧
    (∀ t, step faulted ≠ .next t) ∧ [waitsIn, faulted][2]? = none :=
  ⟨by decide, rfl, ⟨_, rfl⟩, rfl, (fun t h => by
    rw [show step faulted = .fault (.stopped .invalidOpCode) from rfl] at h
    cases h), rfl⟩
/-- A linear pipeline whose first stage has a value to send, and whose second has halted or waits. -/
def line (second : Status) : Pipeline :=
  Pipeline.wire false [((adv [99]).setStatus (.waitingToOutput 5), []), ((adv []).setStatus second, [])]

theorem witness_WorkersShareOnlyChannels :
    (∃ s t r, (line .waitingForInput).stages[0]? = some s ∧ drive s = .next t ∧
      ((line .waitingForInput).stages.set 0 t)[1]? = some r ∧ (line .waitingForInput).consumerOf 0 = some 1 ∧
      r.ended = false ∧ Pipeline.sent s t = [5]) ∧
    (∃ r, (line .halted).stages[1]? = some r ∧ r.ended = true) ∧
    0 + 1 < (line .halted).stages.length ∧ 1 + 1 = (line .halted).stages.length ∧
    (line .halted).stages[2]? = none ∧
    ∃ s, (Pipeline.wire false [(faulted, [])]).stages[0]? = some s ∧ ∀ t, drive s ≠ .next t :=
  ⟨⟨_, _, _, rfl, rfl, rfl, rfl, rfl, rfl⟩, ⟨_, rfl, rfl⟩, by decide, by decide, rfl, _, rfl,
    fun _ h => by cases h⟩
theorem witness_LastStageFeedsBothInARing : (ring.ring = true ∧ 1 + 1 = ring.stages.length ∧
    ∃ first s t, ring.stages[0]? = some first ∧ ring.stages[1]? = some s ∧ drive s = .next t ∧
      first.ended = false) ∧
    (∃ first, (Pipeline.wire true [((adv []).setStatus .halted, []),
      ((adv [99]).setStatus (.waitingToOutput 5), [])]).stages[0]? = some first ∧ first.ended = true) ∧
    0 + 1 = ringOfOne.stages.length ∧
    ∃ s t, ringOfOne.stages[0]? = some s ∧ drive s = .next t ∧ t.ended = false :=
  ⟨⟨rfl, rfl, _, _, _, rfl, rfl, rfl, rfl⟩, ⟨_, rfl, rfl⟩, rfl, _, _, rfl, rfl, rfl⟩

end Sys2Proof.Tests
end

section
/-! PROOFS. Memory: what canonical memories with equal reads have in common, and where a read comes from. -/

namespace Sys2Proof.Machine.Memory

/-- A read finds an entry of the address, or nothing is listed there. -/
theorem get_mem_or_unlisted (m : Memory) (a : Int) : (a, m.get a) ∈ m ∨ m.get a = unlisted := by
  induction m with
  | nil => exact .inr rfl
  | cons c m ih =>
    obtain ⟨k, w⟩ := c
    by_cases h : k = a
    · simp [get, h]
    · simpa [get, h] using ih.imp_left .inr

/-- Below its first address a canonical memory lists nothing. -/
theorem get_eq_unlisted_of_lt {m : Memory} {a : Int} (h : ∀ c ∈ m, a < c.1) : m.get a = unlisted :=
  (get_mem_or_unlisted m a).resolve_left fun hm => lt_irrefl a (h _ hm)

/-- The first address of a canonical memory does not read as an unlisted one, so a memory that reads alike
lists an address as small. -/
theorem not_lt_of_get_eq {c : Cell} {m m' : Memory} (hw : c.2 ≠ unlisted)
    (h : ∀ a, get (c :: m) a = m'.get a) : ¬ ∀ d ∈ m', c.1 < d.1 := by
  intro hlt
  have := h c.1
  rw [get_eq_unlisted_of_lt hlt] at this
  exact hw (by simpa [get] using this)

theorem eq_of_get_eq {m m' : Memory} (hm : m.wf) (hm' : m'.wf) (h : ∀ a, m.get a = m'.get a) :
    m = m' := by
  induction m generalizing m' with
  | nil =>
    cases m' with
    | nil => rfl
    | cons d m' =>
      exact absurd (by simp) (not_lt_of_get_eq (hm'.2 d (by simp)) fun a => (h a).symm)
  | cons c m ih =>
    cases m' with
    | nil => exact absurd (by simp) (not_lt_of_get_eq (hm.2 c (by simp)) h)
    | cons d m' =>
      obtain ⟨hc, hp⟩ := List.pairwise_cons.mp hm.1
      obtain ⟨hd, hp'⟩ := List.pairwise_cons.mp hm'.1
      have hcd : c.1 = d.1 := by
        refine le_antisymm (not_lt.mp fun hlt => ?_) (not_lt.mp fun hlt => ?_)
        · exact not_lt_of_get_eq (hm'.2 d (by simp)) (fun a => (h a).symm)
            (List.forall_mem_cons.mpr ⟨hlt, fun e he => hlt.trans (hc e he)⟩)
        · exact not_lt_of_get_eq (hm.2 c (by simp)) h
            (List.forall_mem_cons.mpr ⟨hlt, fun e he => hlt.trans (hd e he)⟩)
      obtain ⟨k, w⟩ := c
      obtain ⟨k', w'⟩ := d
      obtain rfl : k = k' := hcd
      obtain rfl : w = w' := by simpa [get] using h k
      refine congrArg _ (ih ⟨hp, fun e he => hm.2 e (.tail _ he)⟩ ⟨hp', fun e he => hm'.2 e (.tail _ he)⟩
        fun a => ?_)
      by_cases ha : k = a
      · subst ha
        rw [get_eq_unlisted_of_lt hc, get_eq_unlisted_of_lt hd]
      · simpa [get, ha] using h a

/-- Settles O10, by induction on both memories: their first addresses are equal, and so the rest reads alike. -/
theorem equalReadsEqualMemories : Obligations.EqualReadsEqualMemories :=
  fun _ _ => eq_of_get_eq

end Sys2Proof.Machine.Memory
end

section
/-! PROOFS. Fetch: what a fetch and a resolution depend on, and what a fetched instruction says of memory. -/

namespace Sys2Proof.Machine

/-- What fetch and resolution read is the same in both: memory, and `RB` in the variant that reads it. -/
structure ReadsAlike (s t : State) : Prop where
  variant : t.variant = s.variant
  n : t.n = s.n
  mem : t.mem = s.mem
  rb : s.variant = .advanced → t.rb = s.rb

namespace ReadsAlike

variable {s t : State}

theorem hasAddress (h : ReadsAlike s t) (a : Int) : t.hasAddress a = s.hasAddress a :=
  State.hasAddress_congr h.variant h.n a

theorem memRead (h : ReadsAlike s t) (a : Int) : t.memRead a = s.memRead a := by
  simp only [State.memRead, h.hasAddress, h.mem]

theorem readWords (h : ReadsAlike s t) (a : Int) (k : Nat) : t.readWords a k = s.readWords a k := by
  induction k generalizing a with
  | zero => rfl
  | succ k ih => simp only [State.readWords, h.memRead, ih]

theorem resolveRead (h : ReadsAlike s t) (p : Param) : t.resolveRead p = s.resolveRead p := by
  unfold State.resolveRead
  cases hv : s.variant with
  | simple => simp only [h.memRead, h.variant, hv]
  | advanced => simp only [h.memRead, h.variant, hv, h.rb hv]

theorem resolveWrite (h : ReadsAlike s t) (p : Param) : t.resolveWrite p = s.resolveWrite p := by
  unfold State.resolveWrite State.checkAddress
  cases hv : s.variant with
  | simple => simp only [h.hasAddress, h.variant, hv]
  | advanced => simp only [h.hasAddress, h.variant, hv, h.rb hv]

theorem truncatedFault (h : ReadsAlike s t) (ps : List (Kind × Param)) :
    t.truncatedFault ps = s.truncatedFault ps := by
  induction ps with
  | nil => rfl
  | cons kp ps ih =>
    obtain ⟨k, p⟩ := kp
    cases k <;> simp only [State.truncatedFault, State.resolve, h.resolveRead, h.resolveWrite, ih]

theorem fetch (h : ReadsAlike s t) (hpc : t.pc = s.pc) : t.fetch = s.fetch := by
  simp only [State.fetch, h.memRead, h.variant, h.readWords, h.truncatedFault, hpc]

end ReadsAlike

/-- Every address reads alike in states whose memories are the same data. -/
theorem sameMemory_of_eq {s t : State} (hv : t.variant = s.variant) (hn : t.n = s.n)
    (hm : t.mem = s.mem) : SameMemory s t := fun a => by
  simp only [State.memRead, State.hasAddress_congr hv hn, hm]

namespace State

/-- The words read stand at addresses that exist. -/
theorem hasAddress_of_lt_readWords {s : State} {a : Int} {j k : Nat}
    (h : j < (s.readWords a k).length) : s.hasAddress (a + j) = true := by
  induction k generalizing a j with
  | zero => simp [readWords] at h
  | succ k ih =>
    unfold readWords at h
    split at h
    · next w hw =>
      cases j with
      | zero => simpa using (memRead_ok.mp hw).1
      | succ j =>
        have := ih (a := a + 1) (by simpa using h)
        rwa [show a + ((j + 1 : Nat) : Int) = a + 1 + j by push_cast; ring]
    · simp at h

/-- The words read are contents of memory. -/
theorem mem_readWords {s : State} {a w : Int} {k : Nat} (h : w ∈ s.readWords a k) :
    ∃ b, w = s.mem.get b := by
  induction k generalizing a with
  | zero => simp [readWords] at h
  | succ k ih =>
    unfold readWords at h
    split at h
    · next w' hw =>
      obtain rfl | h := List.mem_cons.mp h
      · exact ⟨a, (memRead_ok.mp hw).2⟩
      · exact ih h
    · simp at h

end State

/-- An instruction is built only from the parameters it then has. -/
theorem build_some {o : Op} {ps : List Param} {i : Instr} (h : o.build ps = some i) :
    i.op = o ∧ i.params = ps := by
  unfold Op.build at h
  split at h <;> cases h <;> exact ⟨rfl, rfl⟩

/-- The parameters taken are no more than the words. -/
theorem length_paramsOf_le (o : Op) (f : Fields) (words : List Int) :
    (paramsOf o f words).length ≤ words.length := by
  simp [paramsOf]

/-- A parameter's word is one of the words. -/
theorem word_mem_of_mem_paramsOf {o : Op} {f : Fields} {words : List Int} {p : Param}
    (h : p ∈ paramsOf o f words) : p.word ∈ words := by
  have hz := List.mem_of_mem_take h
  rw [← List.map_uncurry_zip_eq_zipWith] at hz
  obtain ⟨⟨d, w⟩, hm, rfl⟩ := List.mem_map.mp hz
  exact (List.of_mem_zip hm).2

namespace State

variable {s : State} {i : Instr}

/-- Every word of a fetched instruction stands at an address that exists. -/
theorem hasAddress_of_fetch (h : s.fetch = .ok i) {j : Nat} (hj : j < i.op.width) :
    s.hasAddress (s.pc + j) = true := by
  obtain ⟨iw, o, hiw, -, hb⟩ := fetch_ok h
  obtain ⟨rfl, hp⟩ := build_some hb
  have hlen : i.op.arity ≤ (s.readWords (s.pc + 1) i.op.arity).length := by
    have : i.params.length = i.op.arity := by cases i <;> rfl
    rw [← this, hp]
    exact (length_paramsOf_le ..).trans (by rw [← hp, this])
  refine hasAddress_of_lt_readWords (k := i.op.width) ?_
  simp only [Op.width, readWords, hiw, List.length_cons] at hj ⊢
  omega

/-- The parameter words of a fetched instruction are contents of memory. -/
theorem word_of_fetch (h : s.fetch = .ok i) {p : Param} (hp : p ∈ i.params) :
    ∃ b, p.word = s.mem.get b := by
  obtain ⟨iw, o, -, -, hb⟩ := fetch_ok h
  rw [(build_some hb).2] at hp
  exact mem_readWords (word_mem_of_mem_paramsOf hp)

end State

end Sys2Proof.Machine
end

section
/-! PROOFS. Frames: the shapes a completed instruction's effect can have, and what each leaves unchanged. -/

namespace Sys2Proof.Machine

/-- ADD, MUL, LT or EQ with this destination. -/
def StoresTo (i : Instr) (dst : Param) : Prop :=
  ∃ a b, i = .add a b dst ∨ i = .mul a b dst ∨ i = .lt a b dst ∨ i = .eq a b dst

/-- The result of a comparison is a word of either variant. -/
theorem isWord_boolWord (s : State) (b : Bool) : s.isWord (boolWord b) = true := by
  cases hv : s.variant with
  | advanced => exact State.isWord_advanced hv _
  | simple => rw [State.isWord_simple hv]; cases b <;> rfl

/-- ADD, MUL, LT and EQ store a word at the address their destination resolves to. -/
theorem Effect.stored {i : Instr} {s t : State} {dst : Param} (h : Effect i s t)
    (hi : StoresTo i dst) :
    ∃ d v, s.resolveWrite dst = .ok d ∧ s.isWord v = true ∧ t = s.stored d v 4 := by
  obtain ⟨a, b, rfl | rfl | rfl | rfl⟩ := hi
  · obtain ⟨x, y, d, -, -, hd, hw, rfl⟩ := h
    exact ⟨d, _, hd, hw, rfl⟩
  · obtain ⟨x, y, d, -, -, hd, hw, rfl⟩ := h
    exact ⟨d, _, hd, hw, rfl⟩
  · obtain ⟨x, y, d, -, -, hd, rfl⟩ := h
    exact ⟨d, _, hd, isWord_boolWord s _, rfl⟩
  · obtain ⟨x, y, d, -, -, hd, rfl⟩ := h
    exact ⟨d, _, hd, isWord_boolWord s _, rfl⟩

/-- The next states of completed instructions, by what happens to the state. -/
inductive Change (i : Instr) (s : State) : State → Prop where
  | stores (dst : Param) (d v : Int) (hi : StoresTo i dst) (hd : s.resolveWrite dst = .ok d)
      (hw : s.isWord v = true) : Change i s (s.stored d v 4)
  | latches (dst : Param) (d : Int) (hi : i = .inp dst) (hd : s.resolveWrite dst = .ok d)
      (hv : s.variant = .advanced) :
      Change i s (((s.setPendDst d).setStatus .waitingForInput).setResponse .ok)
  | inputBlocks (dst : Param) (hi : i = .inp dst) : Change i s (s.polled.setResponse .blocked)
  | inputs (dst : Param) (d v : Int) (vs : List Int) (hi : i = .inp dst)
      (hd : s.resolveWrite dst = .ok d) (hv : s.variant = .simple) (hw : s.isWord v = true) :
      Change i s ((s.polled.setInputs vs).stored d v 2)
  | suspends (a : Param) (v : Int) (hi : i = .out a) (ha : s.resolveRead a = .ok v)
      (hv : s.variant = .advanced) :
      Change i s (((s.advance 2).setStatus (.waitingToOutput v)).setResponse .ok)
  | outputBlocks (a : Param) (hi : i = .out a) (hv : s.variant = .simple) :
      Change i s (s.offered.setResponse .blocked)
  | outputs (a : Param) (v : Int) (hi : i = .out a) (hv : s.variant = .simple) :
      Change i s (((s.send v).advance 2).setResponse .ok)
  | jumps (a b : Param) (y : Int) (hi : i = .jt a b ∨ i = .jf a b) (hb : s.resolveRead b = .ok y) :
      Change i s ((s.setPc y).setResponse .ok)
  | passes (a b : Param) (hi : i = .jt a b ∨ i = .jf a b) :
      Change i s ((s.advance 3).setResponse .ok)
  | rebases (a : Param) (x : Int) (hi : i = .arb a) (hv : s.variant = .advanced)
      (ha : s.resolveRead a = .ok x) :
      Change i s (((s.setRb (s.rb + x)).advance 2).setResponse .ok)
  | halts (hi : i = .halt) : Change i s ((s.setStatus .halted).setResponse .ok)

/-- An effect is one of the changes. -/
theorem Effect.change {i : Instr} {s t : State} (h : Effect i s t) : Change i s t := by
  have store {dst} (hi : StoresTo i dst) : Change i s t := by
    obtain ⟨d, v, hd, hw, rfl⟩ := h.stored hi
    exact .stores dst d v hi hd hw
  cases i with
  | add a b dst => exact store ⟨a, b, .inl rfl⟩
  | mul a b dst => exact store ⟨a, b, .inr (.inl rfl)⟩
  | lt a b dst => exact store ⟨a, b, .inr (.inr (.inl rfl))⟩
  | eq a b dst => exact store ⟨a, b, .inr (.inr (.inr rfl))⟩
  | inp dst =>
    obtain ⟨d, hd, ⟨hv, rfl⟩ | ⟨-, -, rfl⟩ | ⟨v, vs, hv, -, hw, rfl⟩⟩ := h
    · exact .latches dst d rfl hd hv
    · exact .inputBlocks dst rfl
    · exact .inputs dst d v vs rfl hd hv hw
  | out a =>
    obtain ⟨v, ha, ⟨hv, rfl⟩ | ⟨hv, -, rfl⟩ | ⟨hv, -, rfl⟩⟩ := h
    · exact .suspends a v rfl ha hv
    · exact .outputBlocks a rfl hv
    · exact .outputs a v rfl hv
  | jt a b =>
    obtain ⟨x, y, -, hy, rfl⟩ := h
    split
    · exact .jumps a b y (.inl rfl) hy
    · exact .passes a b (.inl rfl)
  | jf a b =>
    obtain ⟨x, y, -, hy, rfl⟩ := h
    split
    · exact .jumps a b y (.inr rfl) hy
    · exact .passes a b (.inr rfl)
  | arb a =>
    obtain ⟨hv, x, hx, rfl⟩ := h
    exact .rebases a x rfl hv hx
  | halt =>
    obtain rfl := h
    exact .halts rfl

namespace State

section stored
variable (s : State) (a v w : Int)
@[simp] theorem stored_variant : (s.stored a v w).variant = s.variant := rfl
@[simp] theorem stored_n : (s.stored a v w).n = s.n := rfl
@[simp] theorem stored_pc : (s.stored a v w).pc = s.pc + w := rfl
@[simp] theorem stored_rb : (s.stored a v w).rb = s.rb := rfl
@[simp] theorem stored_status : (s.stored a v w).status = s.status := rfl
@[simp] theorem stored_pendDst : (s.stored a v w).pendDst = s.pendDst := rfl
@[simp] theorem stored_fault : (s.stored a v w).fault = s.fault := rfl
@[simp] theorem stored_mem : (s.stored a v w).mem = s.mem.set a v := rfl
@[simp] theorem stored_sending : (s.stored a v w).sending = s.sending := rfl
end stored

/-- A store leaves the reads of every other address as they were. -/
theorem memRead_stored_ne (s : State) {a x : Int} (v w : Int) (h : x ≠ a) :
    (s.stored a v w).memRead x = s.memRead x := by
  simp only [memRead, hasAddress_congr (s.stored_variant a v w) (s.stored_n a v w), stored_mem,
    Memory.get_set_ne s.mem v h]

end State

theorem sameButPc_stored (s : State) (a v w : Int) : SameButPc s (s.stored a v w) := by
  constructor <;> rfl

theorem sameButPc_enterFault (s : State) (c : FaultCode) : SameButPc s (s.enterFault c) := by
  constructor <;> simp

theorem untouched_enterFault (s : State) (c : FaultCode) : Untouched s (s.enterFault c) := by
  constructor <;> simp

theorem sameMemory_enterFault (s : State) (c : FaultCode) : SameMemory s (s.enterFault c) :=
  sameMemory_of_eq (by simp) (by simp) (by simp)

/-- Settles O26: these instructions only enter a fault or store at the address of their destination. -/
theorem frameOfTheStores : Obligations.FrameOfTheStores := by
  intro s t a b dst i hi h
  obtain ⟨c, rfl⟩ | he := exec_next h
  · exact ⟨sameButPc_enterFault s c, .inr ⟨c, rfl⟩, fun x _ => sameMemory_enterFault s c x⟩
  · obtain ⟨d, v, hd, -, rfl⟩ := he.stored ⟨a, b, hi⟩
    exact ⟨sameButPc_stored s d v 4, .inl rfl, fun x hx => s.memRead_stored_ne v 4 (hx d hd)⟩

/-- Settles O27: a fault leaves everything but `FAULT` and the response, and the effect of each of the five
instructions is written out, none of them with a store. -/
theorem frameOfTheOthers : Obligations.FrameOfTheOthers := by
  intro s t i hi h
  obtain ⟨c, rfl⟩ | he := exec_next h
  · exact ⟨sameMemory_enterFault s c, by simp⟩
  obtain ⟨a, rfl⟩ | ⟨a, b, rfl⟩ | ⟨a, b, rfl⟩ | ⟨a, rfl⟩ | rfl := hi
  · obtain ⟨v, -, ⟨hv, rfl⟩ | ⟨hv, -, rfl⟩ | ⟨hv, -, rfl⟩⟩ := he
    · exact ⟨sameMemory_of_eq rfl rfl rfl, by simp [hv]⟩
    · exact ⟨sameMemory_of_eq rfl rfl rfl, by simp [hv]⟩
    · exact ⟨sameMemory_of_eq (by simp) (by simp) (by simp), by simp [hv]⟩
  · obtain ⟨x, y, -, -, rfl⟩ := he
    split <;> exact ⟨sameMemory_of_eq rfl rfl rfl, by simp⟩
  · obtain ⟨x, y, -, -, rfl⟩ := he
    split <;> exact ⟨sameMemory_of_eq rfl rfl rfl, by simp⟩
  · obtain ⟨-, x, -, rfl⟩ := he
    exact ⟨sameMemory_of_eq rfl rfl rfl, by simp⟩
  · obtain rfl := he
    exact ⟨sameMemory_of_eq rfl rfl rfl, by simp⟩

end Sys2Proof.Machine
end

section
/-! PROOFS. Steps: which part of the state a move changes, and with what cause. -/

namespace Sys2Proof.Machine

variable {d : Prop} {s t : State} {i : Instr}

/-- A core that no command has reached yet is running and not faulted. -/
theorem running_of_untouched (h : s.untouched = true) : s.fault = none ∧ s.status = .running := by
  simp only [State.untouched, Bool.and_eq_true, decide_eq_true_eq, Option.isNone_iff_eq_none] at h
  obtain ⟨⟨-, hf⟩, hs⟩ := h
  exact ⟨hf, hs⟩

/-! ## The variant and the size never change -/

theorem Change.variant_n (h : Change i s t) : t.variant = s.variant ∧ t.n = s.n := by
  cases h <;> simp

theorem Move.variant_n (h : Move d s t) : t.variant = s.variant ∧ t.n = s.n := by
  cases h with
  | executes i t hf hs hi he => exact he.change.variant_n
  | _ => simp

/-! ## RB -/

/-- The ARB at `PC` has been executed and has added its operand (R140). -/
def Rebased (s t : State) : Prop :=
  s.variant = .advanced ∧ s.fault = none ∧ s.status = .running ∧
    ∃ a x, s.fetch = .ok (.arb a) ∧ s.resolveRead a = .ok x ∧ t.rb = s.rb + x

theorem Change.rb (h : Change i s t) : t.rb = s.rb ∨
    s.variant = .advanced ∧ ∃ a x, i = .arb a ∧ s.resolveRead a = .ok x ∧ t.rb = s.rb + x := by
  cases h with
  | rebases a x hi hv ha => exact .inr ⟨hv, a, x, hi, ha, rfl⟩
  | _ => simp

theorem Move.rb (h : Move d s t) : t.rb = s.rb ∨ Rebased s t := by
  cases h with
  | executes i t hf hs hi he =>
    obtain hrb | ⟨hv, a, x, rfl, ha, hrb⟩ := he.change.rb
    · exact .inl hrb
    · exact .inr ⟨hv, hf, hs, a, x, hi, ha, hrb⟩
  | _ => simp

theorem Move.rb_simple (h : Move d s t) (hv : s.variant = .simple) : t.rb = s.rb :=
  h.rb.resolve_right fun ⟨ha, _⟩ => by simp [hv] at ha

/-- Settles O41, from the one inversion of a step. -/
theorem onlyArbChangesRb : Obligations.OnlyArbChangesRb := by
  intro s t h hrb
  obtain ⟨u, l, hm, rfl⟩ := step_move h
  exact hm.rb.resolve_left hrb

/-! ## Memory -/

/-- What may write memory at an address (R31). -/
def MayWrite (s : State) (x : Int) : Prop :=
  (s.fault = none ∧ s.status = .running ∧ ∃ dst, s.resolveWrite dst = .ok x ∧
    ((∃ a b, s.fetch = .ok (.add a b dst) ∨ s.fetch = .ok (.mul a b dst) ∨
        s.fetch = .ok (.lt a b dst) ∨ s.fetch = .ok (.eq a b dst)) ∨
      (s.variant = .simple ∧ s.fetch = .ok (.inp dst)))) ∨
  (s.fault = none ∧ s.status = .waitingForInput ∧ x = s.pendDst) ∨
  (s.untouched = true ∧ ∃ v rest, s.host = .write x v :: rest)

theorem Change.mem (h : Change i s t) : t.mem = s.mem ∨
    ∃ dst x v, t.mem = s.mem.set x v ∧ s.resolveWrite dst = .ok x ∧ s.isWord v = true ∧
      (StoresTo i dst ∨ s.variant = .simple ∧ i = .inp dst) := by
  cases h with
  | stores dst x v hi hd hw => exact .inr ⟨dst, x, v, rfl, hd, hw, .inl hi⟩
  | inputs dst x v vs hi hd hv hw => exact .inr ⟨dst, x, v, rfl, hd, hw, .inr ⟨hv, hi⟩⟩
  | _ => simp

/-- A move leaves memory alone or writes one word at one address that exists, for one of the causes; only the
value that ends a wait for input is not known to be a word of the variant. -/
theorem Move.mem (h : Move d s t) : t.mem = s.mem ∨
    ∃ x v, t.mem = s.mem.set x v ∧ s.hasAddress x = true ∧ MayWrite s x ∧
      (s.status = .waitingForInput ∨ s.isWord v = true) := by
  cases h with
  | executes i t hf hs hi he =>
    obtain hm | ⟨dst, x, v, hm, hd, hw, hc⟩ := he.change.mem
    · exact .inl hm
    refine .inr ⟨x, v, hm, State.hasAddress_of_resolveWrite hd,
      .inl ⟨hf, hs, dst, hd, hc.imp (fun ⟨a, b, hab⟩ => ⟨a, b, ?_⟩) fun ⟨hv, hin⟩ => ⟨hv, hin ▸ hi⟩⟩,
      .inr hw⟩
    simpa only [hi, Except.ok.injEq] using hab
  | given v hh hf hs ha => exact .inr ⟨s.pendDst, v, rfl, ha, .inr (.inl ⟨hf, hs, rfl⟩), .inl hs⟩
  | receives v vs hd hf hs hv ha =>
    exact .inr ⟨s.pendDst, v, rfl, ha, .inr (.inl ⟨hf, hs, rfl⟩), .inl hs⟩
  | writes a v hh hu hw ha =>
    obtain ⟨later, hh⟩ := hh
    exact .inr ⟨a, v, rfl, ha, .inr (.inr ⟨hu, v, later, hh⟩), .inr hw⟩
  | _ => simp

/-- Settles O42: the address that reads differently is the one written. -/
theorem onlyTheseWriteMemory : Obligations.OnlyTheseWriteMemory := by
  intro s t x h hx
  obtain ⟨u, l, hm, rfl⟩ := step_move h
  obtain hsame | ⟨y, v, hset, -, hc, -⟩ := hm.mem
  · exact absurd (by rw [State.setHost_mem, hsame]) hx
  · have hxy : x = y := by
      by_contra hne
      exact hx (by rw [State.setHost_mem, hset, Memory.get_set_ne _ _ hne])
    exact hxy ▸ hc

/-! ## FAULT -/

/-- A move of a faulted core is a further violation, an attempt at the I/O capability or an answer. -/
theorem Move.of_faulted {c : FaultCode} (h : Move d s t) (hc : s.fault = some c) :
    t.fault = some c ∧ Untouched s t := by
  cases h with
  | faults c' => exact ⟨by simp [hc], untouched_enterFault s c'⟩
  | receiveFaults v vs c' => exact ⟨by simp [hc], { untouched_enterFault (s.polled.setInputs vs) c' with }⟩
  | stalls | blocks | answers => exact ⟨hc, by constructor <;> rfl⟩
  | writes a v hh hu => simp [(running_of_untouched hu).1] at hc
  | executes _ _ hf | given _ _ hf | receives _ _ _ hf | delivers _ _ hf | sends _ _ hf | holds _ _ hf
  | handsOver _ _ hf => simp [hf] at hc

/-- Settles O31, from the one inversion of a step. -/
theorem faultIsSticky : Obligations.FaultIsSticky := by
  intro s t c hc h
  obtain ⟨u, l, hm, rfl⟩ := step_move h
  obtain ⟨hf, hu⟩ := hm.of_faulted hc
  exact ⟨hf, { hu with }⟩

/-! ## STATE -/

/-- A core that was running has executed the IN, OUT or HALT at `PC` (R25). -/
def LeftRunning (s t : State) : Prop :=
  s.status = .running ∧
    ((t.status = .waitingForInput ∧ s.variant = .advanced ∧ ∃ dst, s.fetch = .ok (.inp dst)) ∨
      (∃ a v, t.status = .waitingToOutput v ∧ s.variant = .advanced ∧ s.fetch = .ok (.out a) ∧
        s.resolveRead a = .ok v) ∨
      (t.status = .halted ∧ s.fetch = .ok .halt))

/-- The wait for input has ended with a value of the host or of `get_input` (R25, R152). -/
def InputLifted (s t : State) : Prop :=
  s.status = .waitingForInput ∧ t.status = .running ∧ t.pc = s.pc + 2 ∧
    ∃ v, t.mem = s.mem.set s.pendDst v ∧
      ((∃ later, s.host = .input v :: later) ∨ (s.LeftToRun ∧ s.inputs = v :: t.inputs))

/-- The pending value has been taken by the host or by `run` (R25, R153, R154). -/
def OutputTaken (s t : State) : Prop :=
  ∃ v, s.status = .waitingToOutput v ∧ t.status = .running ∧ t.pc = s.pc ∧ t.mem = s.mem ∧
    (((∃ later, s.host = .output :: later) ∧ t.response = .value v) ∨
      (s.LeftToRun ∧ s.reply ≠ .blocked ∧ t.response = .value v) ∨
      (s.LeftToRun ∧ s.reply = .blocked ∧ t.sending = some v))

theorem Change.status (h : Change i s t) : t.status = s.status ∨
    (t.status = .waitingForInput ∧ s.variant = .advanced ∧ ∃ dst, i = .inp dst) ∨
    (∃ a v, t.status = .waitingToOutput v ∧ s.variant = .advanced ∧ i = .out a ∧
      s.resolveRead a = .ok v) ∨
    (t.status = .halted ∧ i = .halt) := by
  cases h with
  | latches dst x hi hd hv => exact .inr (.inl ⟨rfl, hv, dst, hi⟩)
  | suspends a v hi ha hv => exact .inr (.inr (.inl ⟨a, v, rfl, hv, hi, ha⟩))
  | halts hi => exact .inr (.inr (.inr ⟨rfl, hi⟩))
  | _ => simp

theorem Move.status (h : Move s.LeftToRun s t) :
    t.status = s.status ∨ LeftRunning s t ∨ InputLifted s t ∨ OutputTaken s t := by
  cases h with
  | executes i t hf hs hi he =>
    refine he.change.status.imp_right fun hc => .inl ⟨hs, ?_⟩
    simpa only [hi, Except.ok.injEq] using hc
  | given v hh hf hs ha => exact .inr (.inr (.inl ⟨hs, rfl, rfl, v, rfl, .inl hh⟩))
  | receives v vs hd hf hs hv ha =>
    exact .inr (.inr (.inl ⟨hs, rfl, rfl, v, rfl, .inr ⟨hd, (State.supply_some.mp hv).2⟩⟩))
  | delivers v hh hf hs => exact .inr (.inr (.inr ⟨v, hs, rfl, rfl, rfl, .inl ⟨hh, rfl⟩⟩))
  | sends v hd hf hs hc =>
    exact .inr (.inr (.inr ⟨v, hs, by simp, by simp, by simp, .inr (.inl ⟨hd, hc, by simp⟩)⟩))
  | holds v hd hf hs hc =>
    exact .inr (.inr (.inr ⟨v, hs, rfl, rfl, rfl, .inr (.inr ⟨hd, hc, rfl⟩)⟩))
  | _ => simp

/-- A command in a state that does not allow it is a violation (R151, R159). -/
theorem cmdStep_of_not_running (h : s.status ≠ .running) :
    cmdStep s = .next (s.enterFault .statePreconditionViolation) := by
  unfold cmdStep
  split
  · next hs => exact absurd hs h
  · rfl

theorem cmdInput_of_not_waiting (v : Int) (h : s.status ≠ .waitingForInput) :
    cmdInput v s = .next (s.enterFault .statePreconditionViolation) := by
  unfold cmdInput
  split
  · next hs => exact absurd hs h
  · rfl

theorem cmdOutput_of_not_waiting (h : ∀ v, s.status ≠ .waitingToOutput v) :
    cmdOutput s = .next (s.enterFault .statePreconditionViolation) := by
  unfold cmdOutput
  split
  · next v _ hs => exact absurd hs (h v)
  · rfl

/-- Settles O39: the transitions are those of a move, sorted by the state they leave. -/
theorem stateTransitions : Obligations.StateTransitions := by
  refine ⟨fun s => cmdStep_of_not_running, fun s => cmdInput_of_not_waiting,
    fun s => cmdOutput_of_not_waiting, fun s t _ h => ?_⟩
  obtain ⟨u, l, hm, rfl⟩ := step_move h
  simp only [State.setHost_status, State.setHost_pc, State.setHost_mem, State.setHost_inputs,
    State.setHost_response, State.setHost_sending]
  obtain hst | ⟨hs, hc⟩ | ⟨hs, hc⟩ | ⟨v, hs, hc⟩ := hm.status
  · refine ⟨fun hs => .inl (hst.trans hs), fun hs => .inl (hst.trans hs),
      fun v hs => .inl (hst.trans hs), hst.trans⟩
  · refine ⟨fun _ => ?_, by simp [hs], by simp [hs], by simp [hs]⟩
    obtain ⟨ht, -, hi⟩ | ⟨a, v, ht, -, hi⟩ | hh := hc
    · exact .inr (.inl ⟨ht, hi⟩)
    · exact .inr (.inr (.inl ⟨a, v, ht, hi⟩))
    · exact .inr (.inr (.inr hh))
  · exact ⟨by simp [hs], fun _ => .inr hc, by simp [hs], by simp [hs]⟩
  · refine ⟨by simp [hs], by simp [hs], fun w hw => ?_, by simp [hs]⟩
    obtain rfl : v = w := by simpa [hs] using hw
    exact .inr hc

end Sys2Proof.Machine
end

section
/-! PROOFS. The invariant: each of its parts is kept by a move. -/

namespace Sys2Proof.Machine

variable {d : Prop} {s t : State} {i : Instr}

/-! ## A simple core -/

namespace State.SimpleOk

/-- Every word a simple core reads is in the range, unset ones included. -/
theorem fits_get (h : s.SimpleOk) (a : Int) : Word.fits (s.mem.get a) = true := by
  obtain hm | hu := Memory.get_mem_or_unlisted s.mem a
  · exact (h.cells _ hm).2.2
  · rw [hu]; rfl

theorem fits_of_memRead (h : s.SimpleOk) {a v : Int} (hr : s.memRead a = .ok v) :
    Word.fits v = true := by
  obtain ⟨-, rfl⟩ := memRead_ok.mp hr
  exact h.fits_get a

theorem fits_resolveRead (h : s.SimpleOk) (hv : s.variant = .simple) {p : Param} {v : Int}
    (hp : Word.fits p.word = true) (hr : s.resolveRead p = .ok v) : Word.fits v = true := by
  unfold resolveRead at hr
  split at hr
  · exact h.fits_of_memRead hr
  · cases hr; exact hp
  · simp [hv] at hr
  · cases hr

/-- The parameters of a fetched instruction hold words of the range. -/
theorem fits_word (h : s.SimpleOk) (hi : s.fetch = .ok i) {p : Param} (hp : p ∈ i.params) :
    Word.fits p.word = true := by
  obtain ⟨b, hb⟩ := word_of_fetch hi hp
  exact hb ▸ h.fits_get b

/-- `PC` stays in the range after the fetched instruction, since all its words are inside the allocation. -/
theorem fits_pc_add_width (h : s.SimpleOk) (hv : s.variant = .simple) (hi : s.fetch = .ok i) :
    Word.fits (s.pc + i.op.width) = true := by
  have hfirst := (hasAddress_simple hv _).mp (hasAddress_of_fetch hi (j := 0) (Nat.succ_pos _))
  have hlast := (hasAddress_simple hv _).mp (hasAddress_of_fetch hi (j := i.op.arity) (Nat.lt_succ_self _))
  have hsize := h.size
  rw [Word.fits_iff, Op.width]
  simp only [Word.max32] at hsize
  push_cast at hfirst ⊢
  omega

end State.SimpleOk

theorem StoresTo.width {dst : Param} (h : StoresTo i dst) : i.op.width = 4 := by
  obtain ⟨a, b, rfl | rfl | rfl | rfl⟩ := h <;> rfl

/-- `PC` stays, advances over the instruction, or takes the value of a parameter (R91). -/
theorem Change.pc (h : Change i s t) : t.pc = s.pc ∨ t.pc = s.pc + i.op.width ∨
    ∃ p ∈ i.params, s.resolveRead p = .ok t.pc := by
  cases h with
  | stores dst x v hi => exact .inr (.inl (by simp [hi.width]))
  | inputs dst x v vs hi => subst hi; exact .inr (.inl rfl)
  | suspends a v hi => subst hi; exact .inr (.inl rfl)
  | outputs a v hi => subst hi; exact .inr (.inl (by simp [Op.width, Op.arity, Instr.op, Op.kinds]))
  | jumps a b y hi hb => obtain rfl | rfl := hi <;> exact .inr (.inr ⟨b, by simp [Instr.params], hb⟩)
  | passes a b hi => obtain rfl | rfl := hi <;> exact .inr (.inl rfl)
  | rebases a x hi => subst hi; exact .inr (.inl rfl)
  | _ => simp

/-- A simple core's `PC` stays in the range. -/
theorem Move.fits_pc (h : Move d s t) (hv : s.variant = .simple) (ok : s.SimpleOk) :
    Word.fits t.pc = true := by
  have hpc := ok.pcFits
  have hst := ok.twoStates
  cases h with
  | executes i t hf hs hi he =>
    obtain h | h | ⟨p, hp, h⟩ := he.change.pc
    · rwa [h]
    · rw [h]; exact ok.fits_pc_add_width hv hi
    · exact ok.fits_resolveRead hv (ok.fits_word hi hp) h
  | given v hh hf hs | receives v vs hd hf hs => simp [hs] at hst
  | _ => simpa using hpc

theorem Change.sending (h : Change i s t) : t.sending = s.sending := by
  cases h <;> simp

/-- Nothing comes under way in a simple core. -/
theorem Move.sending_none (h : Move d s t) (ok : s.SimpleOk) : t.sending = none := by
  have hn := ok.noneUnderWay
  have hst := ok.twoStates
  cases h with
  | executes i t hf hs hi he => rw [he.change.sending, hn]
  | holds v hd hf hs => simp [hs] at hst
  | handsOver v hd hf hs hv => simp
  | _ => simpa using hn

/-- A simple core stays running or halted. -/
theorem Move.two_states (h : Move s.LeftToRun s t) (hv : s.variant = .simple) (ok : s.SimpleOk) :
    t.status = .running ∨ t.status = .halted := by
  have hst := ok.twoStates
  obtain h | ⟨-, ⟨-, ha, -⟩ | ⟨a, v, -, ha, -⟩ | ⟨ht, -⟩⟩ | ⟨hs, -⟩ | ⟨v, hs, -⟩ := h.status
  · rwa [h]
  · simp [hv] at ha
  · simp [hv] at ha
  · exact .inr ht
  · simp [hs] at hst
  · simp [hs] at hst

/-- The entries of a simple core's memory stay words inside the allocation. -/
theorem Move.cells (h : Move d s t) (hv : s.variant = .simple) (ok : s.SimpleOk) :
    ∀ c ∈ t.mem, 0 ≤ c.1 ∧ c.1 < (s.n : Int) ∧ Word.fits c.2 = true := by
  intro c hc
  obtain hm | ⟨x, v, hm, ha, -, hw⟩ := h.mem
  · exact ok.cells c (hm ▸ hc)
  · obtain rfl | hc := Memory.mem_set (hm ▸ hc)
    · obtain ⟨h0, hn⟩ := (State.hasAddress_simple hv x).mp ha
      have hst : s.status ≠ .waitingForInput := by
        obtain hs | hs := ok.twoStates <;> simp [hs]
      exact ⟨h0, hn, (State.isWord_simple hv v).symm.trans (hw.resolve_left hst)⟩
    · exact ok.cells c hc

theorem Move.simpleOk (h : Move s.LeftToRun s t) (hv : s.variant = .simple) (ok : s.SimpleOk) :
    t.SimpleOk where
  size := h.variant_n.2 ▸ ok.size
  pcFits := h.fits_pc hv ok
  rbZero := (h.rb_simple hv).trans ok.rbZero
  twoStates := h.two_states hv ok
  noneUnderWay := h.sending_none ok
  cells := h.variant_n.2 ▸ h.cells hv ok

/-! ## The wait for input -/

/-- An instruction that makes a running core wait for input is an IN that has latched its destination. -/
theorem Change.latched (h : Change i s t) (hs : s.status = .running)
    (ht : t.status = .waitingForInput) :
    ∃ dst x, i = .inp dst ∧ s.resolveWrite dst = .ok x ∧
      t = ((s.setPendDst x).setStatus .waitingForInput).setResponse .ok := by
  cases h with
  | latches dst x hi hd hv => exact ⟨dst, x, hi, hd, rfl⟩
  | _ => simp [hs] at ht

/-- A core waits after a move only because it did before, or because an IN has latched its destination;
both leave memory and `PC` as they are. -/
theorem Move.waiting (h : Move d s t) (ht : t.status = .waitingForInput) :
    ReadsAlike s t ∧ t.pc = s.pc ∧
      ((s.status = .waitingForInput ∧ t.pendDst = s.pendDst) ∨
        ∃ dst, s.fetch = .ok (.inp dst) ∧ s.resolveWrite dst = .ok t.pendDst) := by
  cases h with
  | executes i t hf hs hi he =>
    obtain ⟨dst, x, rfl, hd, rfl⟩ := he.change.latched hs ht
    exact ⟨⟨rfl, rfl, rfl, fun _ => rfl⟩, rfl, .inr ⟨dst, hi, hd⟩⟩
  | faults c =>
    exact ⟨by constructor <;> simp, by simp, .inl ⟨by simpa using ht, by simp⟩⟩
  | receiveFaults v vs c hs => exact ⟨by constructor <;> simp, by simp, .inl ⟨hs, by simp⟩⟩
  | stalls hd hs => exact ⟨⟨rfl, rfl, rfl, fun _ => rfl⟩, rfl, .inl ⟨hs, rfl⟩⟩
  | answers r => exact ⟨⟨rfl, rfl, rfl, fun _ => rfl⟩, rfl, .inl ⟨ht, rfl⟩⟩
  | handsOver v hd hf hs | blocks hd v hs => simp [hs] at ht
  | writes a v hh hu => simp [(running_of_untouched hu).2] at ht
  | given | receives | delivers | sends | holds => simp at ht

theorem Move.pendingOk (h : Move d s t) (hp : s.status = .waitingForInput → s.PendingOk)
    (ht : t.status = .waitingForInput) : t.PendingOk := by
  obtain ⟨hr, hpc, hc⟩ := h.waiting ht
  have pending : ∃ dst, s.fetch = .ok (.inp dst) ∧ s.resolveWrite dst = .ok t.pendDst := by
    obtain ⟨hs, hd⟩ | hl := hc
    · exact hd ▸ hp hs
    · exact hl
  obtain ⟨dst, hi, hd⟩ := pending
  exact ⟨dst, (hr.fetch hpc).trans hi, (hr.resolveWrite dst).trans hd⟩

/-! ## The whole -/

theorem Move.wf (h : Move d s t) (hw : Memory.wf s.mem) : Memory.wf t.mem := by
  obtain hm | ⟨x, v, hm, -⟩ := h.mem
  · rwa [hm]
  · rw [hm]; exact Memory.wf_set x v hw

theorem Move.inv (h : Move s.LeftToRun s t) (hs : s.Inv) : t.Inv where
  canonical := h.wf hs.canonical
  simple hv := by
    rw [h.variant_n.1] at hv
    exact h.simpleOk hv (hs.simple hv)
  pending := h.pendingOk hs.pending

/-- The invariant does not speak of the host's list. -/
theorem State.Inv.setHost (h : s.Inv) (l : List HostAction) : (s.setHost l).Inv where
  canonical := h.canonical
  simple hv := { h.simple hv with }
  pending hs := by
    obtain ⟨dst, hi, hd⟩ := h.pending hs
    have hr : ReadsAlike s (s.setHost l) := ⟨rfl, rfl, rfl, fun _ => rfl⟩
    exact ⟨dst, (hr.fetch rfl).trans hi, (hr.resolveWrite dst).trans hd⟩

/-- Settles O51: a move keeps each part, and taking an action off the host's list changes none. -/
theorem stepKeepsTheInvariant : Obligations.StepKeepsTheInvariant := by
  intro s t hs h
  obtain ⟨u, l, hm, rfl⟩ := step_move h
  exact (hm.inv hs).setHost l

end Sys2Proof.Machine
end

section
/-! PROOFS. What a step does not read: `RB` in the simple variant, and `PEND_DST` but in a wait for input. States
that differ there alone step alike. -/

namespace Sys2Proof.Machine

/-- The same state, but for `RB` in the simple variant and `PEND_DST` outside a wait for input. -/
structure Alike (s t : State) : Prop extends ReadsAlike s t where
  pc : t.pc = s.pc
  status : t.status = s.status
  pendDst : s.status = .waitingForInput → t.pendDst = s.pendDst
  fault : t.fault = s.fault
  response : t.response = s.response
  host : t.host = s.host
  inputs : t.inputs = s.inputs
  stalls : t.stalls = s.stalls
  replies : t.replies = s.replies
  consumer : t.consumer = s.consumer
  outputs : t.outputs = s.outputs
  sending : t.sending = s.sending

/-- The same kind of outcome with the same reason, or next states that are alike. -/
inductive Agree : Result → Result → Prop where
  | next {s t : State} (h : Alike s t) : Agree (.next s) (.next t)
  | fault (c : Fault) : Agree (.fault c) (.fault c)
  | refused (r : Refusal) : Agree (.refused r) (.refused r)

/-! ## Updates of states that are alike -/

namespace Alike

variable {s t : State}

theorem refl (s : State) : Alike s s := by
  constructor
  case toReadsAlike => exact ⟨rfl, rfl, rfl, fun _ => rfl⟩
  all_goals simp

theorem setRb (hv : s.variant = .simple) (r : Int) : Alike s (s.setRb r) :=
  { refl s with rb := fun ha => by simp [hv] at ha }

theorem setPendDst (hs : s.status ≠ .waitingForInput) (d : Int) : Alike s (s.setPendDst d) :=
  { refl s with pendDst := fun h => absurd h hs }

theorem setPc (h : Alike s t) (v : Int) : Alike (s.setPc v) (t.setPc v) := { h with pc := rfl }

theorem advance (h : Alike s t) (w : Int) : Alike (s.advance w) (t.advance w) :=
  { h with pc := congrArg (· + w) h.pc }

theorem addRb (h : Alike s t) (v : Int) : Alike (s.setRb (s.rb + v)) (t.setRb (t.rb + v)) :=
  { h with rb := fun hv => congrArg (· + v) (h.rb hv) }

theorem setStatus (h : Alike s t) {v : Status} (hv : v ≠ .waitingForInput) :
    Alike (s.setStatus v) (t.setStatus v) :=
  { h with status := rfl, pendDst := fun h => absurd h hv }

theorem latch (h : Alike s t) (d : Int) (v : Status) :
    Alike ((s.setPendDst d).setStatus v) ((t.setPendDst d).setStatus v) :=
  { h with status := rfl, pendDst := fun _ => rfl }

theorem setFault (h : Alike s t) (v : Option FaultCode) : Alike (s.setFault v) (t.setFault v) :=
  { h with fault := rfl }

theorem setMem (h : Alike s t) (m : Memory) : Alike (s.setMem m) (t.setMem m) := { h with mem := rfl }

theorem setResponse (h : Alike s t) (v : Response) : Alike (s.setResponse v) (t.setResponse v) :=
  { h with response := rfl }

theorem setHost (h : Alike s t) (v : List HostAction) : Alike (s.setHost v) (t.setHost v) :=
  { h with host := rfl }

theorem setInputs (h : Alike s t) (v : List Int) : Alike (s.setInputs v) (t.setInputs v) :=
  { h with inputs := rfl }

theorem setSending (h : Alike s t) (v : Option Int) : Alike (s.setSending v) (t.setSending v) :=
  { h with sending := rfl }

theorem polled (h : Alike s t) : Alike s.polled t.polled :=
  { h with stalls := congrArg List.tail h.stalls }

theorem offered (h : Alike s t) : Alike s.offered t.offered :=
  { h with replies := congrArg List.tail h.replies }

theorem reply (h : Alike s t) : t.reply = s.reply := by
  simp only [State.reply, h.replies, h.consumer]

theorem supply (h : Alike s t) : t.supply = s.supply := by
  simp only [State.supply, h.stalls, h.inputs]

theorem send (h : Alike s t) (v : Int) : Alike (s.send v) (t.send v) := by
  simp only [State.send, h.reply]
  split
  · exact h.offered
  all_goals exact { h.offered with outputs := congrArg (· ++ [v]) h.outputs }

theorem enterFault (h : Alike s t) (c : FaultCode) : Alike (s.enterFault c) (t.enterFault c) := by
  simp only [State.enterFault, h.fault]
  split
  · exact (h.setFault _).setResponse _
  · exact h.setResponse _

theorem ended (h : Alike s t) : t.ended = s.ended := by
  simp only [State.ended, h.fault, h.status]

theorem untouched (h : Alike s t) : t.untouched = s.untouched := by
  simp only [State.untouched, h.response, h.fault, h.status]

theorem popUnlessBlocked (h : Alike s t) (rest : List HostAction) :
    Alike (popUnlessBlocked rest s) (popUnlessBlocked rest t) := by
  simp only [Machine.popUnlessBlocked, h.response]
  split
  · exact h
  · exact h.setHost rest

theorem popWhenEnded (h : Alike s t) (rest : List HostAction) :
    Alike (popWhenEnded rest s) (popWhenEnded rest t) := by
  simp only [Machine.popWhenEnded, h.ended]
  split
  · exact h.setHost rest
  · exact h

/-- What states that are alike may differ in. -/
theorem eq_set (h : Alike s t) : t = (s.setRb t.rb).setPendDst t.pendDst :=
  State.ext_fields h.variant h.n h.pc rfl h.status rfl h.fault h.mem h.response h.host h.inputs h.stalls
    h.replies h.consumer h.outputs h.sending

/-! ## The operations that instructions and commands share -/

/-- A write to an address faults in both states, or gives states that are alike. -/
theorem memWrite (h : Alike s t) (a v : Int) :
    (∃ c, s.memWrite a v = .error c ∧ t.memWrite a v = .error c) ∨
      ∃ s' t', s.memWrite a v = .ok s' ∧ t.memWrite a v = .ok t' ∧ Alike s' t' := by
  simp only [State.memWrite, h.hasAddress, h.mem]
  cases s.hasAddress a with
  | true => exact .inr ⟨_, _, rfl, rfl, h.setMem _⟩
  | false => exact .inl ⟨_, rfl, rfl⟩

theorem raise (h : Alike s t) (c : FaultCode) : Agree (raise c s) (raise c t) := .next (h.enterFault c)

theorem done (h : Alike s t) : Agree (done s) (done t) := .next (h.setResponse .ok)

theorem wait (h : Alike s t) : Agree (wait s) (wait t) := .next (h.setResponse .blocked)

theorem isWord (h : Alike s t) (v : Int) : t.isWord v = s.isWord v := by
  simp only [State.isWord, h.variant]

theorem withRead (h : Alike s t) (p : Param) {k k' : Int → Result} (hk : ∀ v, Agree (k v) (k' v)) :
    Agree (withRead s p k) (withRead t p k') := by
  simp only [Machine.withRead, h.resolveRead]
  split
  · exact h.raise _
  · exact hk _

theorem withWrite (h : Alike s t) (p : Param) {k k' : Int → Result} (hk : ∀ v, Agree (k v) (k' v)) :
    Agree (withWrite s p k) (withWrite t p k') := by
  simp only [Machine.withWrite, h.resolveWrite]
  split
  · exact h.raise _
  · exact hk _

theorem withResult (h : Alike s t) (v : Int) {k k' : Int → Result} (hk : ∀ v, Agree (k v) (k' v)) :
    Agree (withResult s v k) (withResult t v k') := by
  simp only [Machine.withResult, h.isWord]
  split
  · exact hk v
  · exact h.raise _

theorem storeAndAdvance (h : Alike s t) (a v w : Int) :
    Agree (storeAndAdvance s a v w) (storeAndAdvance t a v w) := by
  unfold Machine.storeAndAdvance
  obtain ⟨c, hs, ht⟩ | ⟨s', t', hs, ht, h'⟩ := h.memWrite a v
  · simpa only [hs, ht] using h.raise c
  · simpa only [hs, ht] using (h'.advance w).done

end Alike

theorem Agree.mapNext {r r' : Result} (h : Agree r r') {f : State → State}
    (hf : ∀ {s t}, Alike s t → Alike (f s) (f t)) : Agree (mapNext f r) (mapNext f r') := by
  cases h with
  | next h => exact .next (hf h)
  | fault c => exact .fault c
  | refused r => exact .refused r

/-! ## Instructions -/

namespace Alike

variable {s t : State}

theorem inputInline (h : Alike s t) (d : Int) : Agree (inputInline s d) (inputInline t d) := by
  simp only [Machine.inputInline, h.supply, h.isWord]
  split
  · exact h.polled.wait
  · split
    · exact (h.polled.setInputs _).storeAndAdvance d _ 2
    · exact .refused _

theorem outputInline (h : Alike s t) (v : Int) : Agree (outputInline s v) (outputInline t v) := by
  simp only [Machine.outputInline, h.reply]
  split
  · exact h.offered.wait
  all_goals exact ((h.send v).advance 2).done

theorem jump (h : Alike s t) (taken : Prop) [Decidable taken] (y : Int) :
    Agree (Machine.done (if taken then s.setPc y else s.advance 3))
      (Machine.done (if taken then t.setPc y else t.advance 3)) := by
  split
  · exact (h.setPc y).done
  · exact (h.advance 3).done

theorem exec (h : Alike s t) (i : Instr) : Agree (exec i s) (exec i t) := by
  cases i with
  | add a b dst | mul a b dst =>
    exact h.withRead a fun _ => h.withRead b fun _ => h.withWrite dst fun d =>
      h.withResult _ fun r => h.storeAndAdvance d r 4
  | lt a b dst | eq a b dst =>
    exact h.withRead a fun _ => h.withRead b fun _ => h.withWrite dst fun d => h.storeAndAdvance d _ 4
  | inp dst =>
    refine h.withWrite dst fun d => ?_
    rw [h.variant]
    split
    · exact h.inputInline d
    · exact (h.latch d _).done
  | out a =>
    refine h.withRead a fun v => ?_
    rw [h.variant]
    split
    · exact h.outputInline v
    · exact ((h.advance 2).setStatus (by simp)).done
  | jt a b | jf a b => exact h.withRead a fun x => h.withRead b fun y => h.jump _ y
  | arb a =>
    simp only [Machine.exec, execArb, h.variant]
    split
    · exact h.raise _
    · exact h.withRead a fun x => ((h.addRb x).advance 2).done
  | halt => exact (h.setStatus (by simp)).done

/-! ## Commands and drivers -/

theorem cmdStep (h : Alike s t) : Agree (cmdStep s) (cmdStep t) := by
  simp only [Machine.cmdStep, h.fault, h.status]
  split
  · simp only [execOne, h.fetch h.pc]
    split
    · exact h.raise _
    · exact h.exec _
  · exact h.raise _

theorem cmdInput (h : Alike s t) (v : Int) : Agree (cmdInput v s) (cmdInput v t) := by
  simp only [Machine.cmdInput, h.fault, h.status]
  split
  · next hs =>
    rw [h.pendDst hs]
    obtain ⟨c, hs, ht⟩ | ⟨s', t', hs, ht, h'⟩ := h.memWrite s.pendDst v
    · simpa only [hs, ht] using h.raise c
    · simpa only [hs, ht] using ((h'.advance 2).setStatus (by simp)).done
  · exact h.raise _

theorem cmdOutput (h : Alike s t) : Agree (cmdOutput s) (cmdOutput t) := by
  simp only [Machine.cmdOutput, h.fault, h.status]
  split
  · exact .next ((h.setStatus (by simp)).setResponse _)
  · exact h.raise _

theorem handOver (h : Alike s t) (v : Int) : Agree (handOver v s) (handOver v t) := by
  simp only [Machine.handOver, h.reply]
  split
  · exact h.offered.wait
  all_goals exact ((h.send v).setSending none).done

theorem deliver (h : Alike s t) (v : Int) : Agree (deliver v s) (deliver v t) := by
  simp only [Machine.deliver, h.reply]
  split
  · exact h.cmdOutput.mapNext fun h => (h.offered.setSending _).setResponse _
  all_goals exact h.cmdOutput.mapNext fun h => h.send v

theorem turn (h : Alike s t) : Agree (turn s) (turn t) := by
  simp only [Machine.turn, h.status, h.sending, h.supply]
  split
  · split
    · exact h.cmdStep
    · exact h.handOver _
  · split
    · exact h.polled.wait
    · exact (h.polled.setInputs _).cmdInput _
  · exact h.deliver _
  · exact h.done

theorem drive (h : Alike s t) : Agree (drive s) (drive t) := by
  simp only [Machine.drive, h.fault]
  split
  · exact .fault _
  · exact h.turn

theorem cmdRun (h : Alike s t) : Agree (cmdRun s) (cmdRun t) := by
  simp only [Machine.cmdRun, h.fault]
  split
  · exact .next (h.setResponse _)
  · exact h.turn

theorem hostWrite (h : Alike s t) (a v : Int) : Agree (hostWrite a v s) (hostWrite a v t) := by
  simp only [Machine.hostWrite, h.untouched, h.isWord]
  split
  · exact .refused _
  · split
    · obtain ⟨c, hs, ht⟩ | ⟨s', t', hs, ht, h'⟩ := h.memWrite a v
      · simpa only [hs, ht] using .refused _
      · simpa only [hs, ht] using .next h'
    · exact .refused _

/-- States that are alike step alike. -/
theorem step (h : Alike s t) : Agree (Machine.step s) (Machine.step t) := by
  simp only [Machine.step, hostTurn, h.host, h.variant]
  split
  · exact h.drive
  · exact h.cmdStep.mapNext fun h => h.popUnlessBlocked _
  · exact (h.cmdInput _).mapNext fun h => h.popUnlessBlocked _
  · exact h.cmdOutput.mapNext fun h => h.popUnlessBlocked _
  · split
    · exact h.cmdRun.mapNext fun h => h.popWhenEnded _
    · exact .refused _
  · split
    · exact h.cmdStep.mapNext fun h => h.popWhenEnded _
    · exact .refused _
  · exact (h.hostWrite _ _).mapNext fun h => h.setHost _

end Alike

/-! ## The two statements -/

theorem Change.pendDst_simple {i : Instr} {s t : State} (h : Change i s t) (hv : s.variant = .simple) :
    t.pendDst = s.pendDst := by
  cases h with
  | latches dst d hi hd ha => simp [hv] at ha
  | _ => simp

theorem Move.pendDst_simple {d : Prop} {s t : State} (h : Move d s t) (hv : s.variant = .simple) :
    t.pendDst = s.pendDst := by
  cases h with
  | executes i t hf hs hi he => exact he.change.pendDst_simple hv
  | _ => simp

theorem step_variant {s t : State} (h : Machine.step s = .next t) : t.variant = s.variant := by
  obtain ⟨u, l, hm, rfl⟩ := step_move h
  exact hm.variant_n.1

/-- No step of a simple core changes `RB` or `PEND_DST`. -/
theorem step_rb_pendDst_simple {s t : State} (hv : s.variant = .simple)
    (h : Machine.step s = .next t) : t.rb = s.rb ∧ t.pendDst = s.pendDst := by
  obtain ⟨u, l, hm, rfl⟩ := step_move h
  exact ⟨hm.rb_simple hv, hm.pendDst_simple hv⟩

/-- Settles O53: the states are alike, and the simple variant changes neither register that may differ. -/
theorem simpleVariantIgnoresRb : Obligations.SimpleVariantIgnoresRb := by
  intro s r hv
  have agree := (Alike.setRb hv r).step
  generalize hs : Machine.step s = o, hr : Machine.step (s.setRb r) = o' at agree ⊢
  cases agree with
  | @next u u' h =>
    have hp := (step_rb_pendDst_simple hv hs).2
    obtain ⟨hrb', hp'⟩ := step_rb_pendDst_simple (s := s.setRb r) hv hr
    have hu : u' = u.setRb r := by
      rw [h.eq_set, hrb', hp', State.setRb_pendDst, ← hp]
      rfl
    rw [hu]
    rfl
  | fault c => rfl
  | refused c => rfl

/-- Settles O54: the next states are alike, and `RB`, the other register that may then differ, does not. -/
theorem pendDstIsReadOnlyWhileWaiting : Obligations.PendDstIsReadOnlyWhileWaiting := by
  intro s t d hn hs
  have agree := (Alike.setPendDst hn d).step
  generalize hd : Machine.step (s.setPendDst d) = o at agree ⊢
  rw [hs] at agree
  cases agree with
  | @next _ u h =>
    have hrb : u.rb = t.rb := by
      cases hv : t.variant with
      | advanced => exact h.rb hv
      | simple =>
        have hvs : s.variant = .simple := (step_variant hs).symm.trans hv
        rw [(step_rb_pendDst_simple hvs hs).1, (step_rb_pendDst_simple (s := s.setPendDst d) hvs hd).1]
        rfl
    refine ⟨u.pendDst, ?_, h.pendDst⟩
    have hu := h.eq_set
    rw [hrb] at hu
    exact congrArg _ hu

end Sys2Proof.Machine
end

section
/-! PROOFS. Access: reads and writes of one word, in the sparse memory (R42, R43) and in the dense one (R44 to
R46). -/

namespace Sys2Proof.Machine

/-- An address without an entry reads as an unlisted one. -/
theorem Memory.get_eq_unlisted_of_free {m : Memory} {a : Int} (h : m.Free a) : m.get a = unlisted :=
  (get_mem_or_unlisted m a).resolve_left fun hm => h _ hm rfl

namespace State

variable {s : State} {a : Int}

/-- Which addresses exist does not depend on the content of memory. -/
theorem hasAddress_setMem (s : State) (m : Memory) (a : Int) : (s.setMem m).hasAddress a = s.hasAddress a :=
  hasAddress_congr rfl rfl a

theorem memRead_setMem_set_same (h : s.hasAddress a = true) (v : Int) :
    (s.setMem (s.mem.set a v)).memRead a = .ok v :=
  memRead_ok.mpr ⟨(hasAddress_setMem s _ a).trans h, (Memory.get_set_same s.mem a v).symm⟩

theorem memRead_setMem_set_ne (s : State) {b : Int} (v : Int) (h : b ≠ a) :
    (s.setMem (s.mem.set a v)).memRead b = s.memRead b := by
  simp only [memRead, hasAddress_setMem, setMem_mem, Memory.get_set_ne s.mem v h]

/-- A write to an address that exists succeeds: the address then reads the value, every other address reads as
before, and the size is kept (R43, R45). -/
theorem memWrite_of_hasAddress (h : s.hasAddress a = true) (v : Int) :
    ∃ t, s.memWrite a v = .ok t ∧ t.memRead a = .ok v ∧ t.n = s.n ∧
      ∀ b, b ≠ a → t.memRead b = s.memRead b :=
  ⟨_, memWrite_ok.mpr ⟨h, rfl⟩, memRead_setMem_set_same h v, rfl, fun _ => memRead_setMem_set_ne s v⟩

end State

open State

/-- Settles O8: every address of the advanced variant exists, and one without an entry reads 0. -/
theorem sparseMemory : Obligations.SparseMemory := by
  intro s hv a
  have ha : s.hasAddress a = true := hasAddress_advanced hv a
  refine ⟨⟨_, memRead_ok.mpr ⟨ha, rfl⟩⟩, fun hfree => ?_, fun v => ?_⟩
  · exact memRead_ok.mpr ⟨ha, (Memory.get_eq_unlisted_of_free hfree).symm⟩
  · obtain ⟨t, hw, hsame, -, hne⟩ := memWrite_of_hasAddress ha v
    exact ⟨t, hw, hsame, hne⟩

/-- Settles O9: the addresses that exist in the simple variant are those of the allocation. -/
theorem denseMemory : Obligations.DenseMemory := by
  intro s hv a
  rw [← hasAddress_simple hv a, Bool.not_eq_true]
  refine ⟨fun ha => ?inside, fun ha => ?outside⟩
  case inside => exact ⟨⟨_, memRead_ok.mpr ⟨ha, rfl⟩⟩, memWrite_of_hasAddress ha⟩
  case outside => exact ⟨memRead_error.mpr ⟨ha, rfl⟩, fun _ => memWrite_error.mpr ⟨ha, rfl⟩⟩

end Sys2Proof.Machine
end

section
/-! PROOFS. Decode: the decoder's outcomes, the fields of an instruction word, and the way back from its
canonical words (R61, R62, R74). -/

namespace Sys2Proof

/-! ## The decoder's outcomes -/

/-- The mode digits, in the order of the parameters (R62). -/
def Fields.digits (f : Fields) : List Int := [f.d1, f.d2, f.d3]

section outcomes
variable {v : Variant} {iw : Int} {o : Op} {i : Instr} {words : List Int}

theorem decode_of_opOf_none (h : opOf v (decodeFields iw).opcode = none) :
    decode v (iw :: words) = .error .invalidOpCode := by
  simp only [decode, h]

theorem decode_of_build (ho : opOf v (decodeFields iw).opcode = some o)
    (hb : o.build (paramsOf o (decodeFields iw) words) = some i) :
    decode v (iw :: words) = .ok (i, words.drop o.arity) := by
  simp only [decode, ho, hb]

theorem decode_invalidOpCode_iff :
    decode v (iw :: words) = .error .invalidOpCode ↔ opOf v (decodeFields iw).opcode = none := by
  refine ⟨fun h => ?_, decode_of_opOf_none⟩
  cases ho : opOf v (decodeFields iw).opcode with
  | none => rfl
  | some o =>
    simp only [decode, ho] at h
    split at h <;> cases h

/-- Decoding looks at an instruction word's opcode and at the parameters it gives that operation, only. -/
theorem decode_congr {iw' : Int} (hop : (decodeFields iw).opcode = (decodeFields iw').opcode)
    (hps : ∀ o, opOf v (decodeFields iw).opcode = some o →
      paramsOf o (decodeFields iw) words = paramsOf o (decodeFields iw') words) :
    decode v (iw :: words) = decode v (iw' :: words) := by
  cases ho : opOf v (decodeFields iw).opcode with
  | none => rw [decode_of_opOf_none ho, decode_of_opOf_none (hop ▸ ho)]
  | some o => simp only [decode, ← hop, ho, hps o ho]

end outcomes

/-! ## The fields of a word -/

theorem decodeFields_of_nonneg {iw : Int} (h : 0 ≤ iw) :
    decodeFields iw = ⟨iw % 100, iw / 100 % 10, iw / 100 / 10 % 10, iw / 100 / 100 % 10⟩ := by
  have hq : 0 ≤ iw / 100 := by omega
  have hq1 : 0 ≤ iw / 100 / 10 := by omega
  have hq2 : 0 ≤ iw / 100 / 100 := by omega
  simp only [decodeFields, Config.opcodeModulus, Int.tdiv_eq_ediv_of_nonneg, Int.tmod_eq_emod_of_nonneg,
    h, hq, hq1, hq2]

theorem opcode_of_nonneg {iw : Int} (h : 0 ≤ iw) : (decodeFields iw).opcode = iw % 100 := by
  rw [decodeFields_of_nonneg h]

/-- Settles O3: of numbers that are not negative, truncating division is Euclidean division. -/
theorem fieldsAreDecimalDigits : Obligations.FieldsAreDecimalDigits := by
  intro iw h
  rw [decodeFields_of_nonneg h]
  exact ⟨rfl, rfl, rfl, rfl⟩

/-- Digit `k` has the weight `10 ^ (k + 2)`. -/
theorem digits_decodeFields {iw : Int} (h : 0 ≤ iw) :
    (decodeFields iw).digits = (List.range 3).map fun k => iw / 10 ^ (k + 2) % 10 := by
  rw [decodeFields_of_nonneg h]
  have h2 : iw / 100 / 10 = iw / 10 ^ 3 := by omega
  have h3 : iw / 100 / 100 = iw / 10 ^ 4 := by omega
  simp only [h2, h3]
  rfl

/-- A word composed of an opcode and three digits, as `digitsWord` composes it, has these as its fields. -/
theorem decodeFields_of_digits {c d1 d2 d3 : Int} (hc : 0 ≤ c ∧ c < 100) (h1 : 0 ≤ d1 ∧ d1 < 10)
    (h2 : 0 ≤ d2 ∧ d2 < 10) (h3 : 0 ≤ d3 ∧ d3 < 10) :
    decodeFields (c + (100 * d1 + (100 * 10 * d2 + (100 * 10 * 10 * d3 + 0)))) = ⟨c, d1, d2, d3⟩ := by
  rw [decodeFields_of_nonneg (by omega), Fields.mk.injEq]
  omega

/-! ## What the encoder writes is read back -/

theorem Op.code_bounds (o : Op) : 0 ≤ o.code ∧ o.code < 100 := by
  cases o <;> decide

theorem opOf_code {v : Variant} {o : Op} (h : o.existsIn v = true) : opOf v o.code = some o := by
  cases o with
  | arb =>
    cases v with
    | simple => cases h
    | advanced => rfl
  | add | mul | inp | out | jt | jf | lt | eq | halt => rfl

theorem Mode.digit_bounds (m : Mode) : 0 ≤ m.digit ∧ m.digit < 10 := by
  cases m with
  | reserved k => simp only [Mode.digit]; omega
  | position | immediate | relative => decide

theorem modeOf_digit (m : Mode) : modeOf m.digit = m := by
  cases m with
  | reserved k => revert k; decide
  | position | immediate | relative => rfl

/-- The canonical word of an operation and at most three parameters has the operation's code as its opcode
field, and its digits begin with those of the parameters. -/
theorem decodeFields_digitsWord (o : Op) {ps : List Param} (h : ps.length ≤ 3) :
    ∃ unused, (decodeFields (o.code + digitsWord 100 ps)).opcode = o.code ∧
      (decodeFields (o.code + digitsWord 100 ps)).digits = ps.map (fun p => p.mode.digit) ++ unused := by
  suffices ∃ d1 d2 d3 unused, decodeFields (o.code + digitsWord 100 ps) = ⟨o.code, d1, d2, d3⟩ ∧
      [d1, d2, d3] = ps.map (fun p => p.mode.digit) ++ unused by
    obtain ⟨d1, d2, d3, unused, hf, hd⟩ := this
    exact ⟨unused, by rw [hf], by rw [hf, ← hd]; rfl⟩
  have hd := fun p : Param => p.mode.digit_bounds
  have h0 : (0 : Int) ≤ 0 ∧ (0 : Int) < 10 := by decide
  match ps with
  | [] => exact ⟨0, 0, 0, [0, 0, 0], decodeFields_of_digits o.code_bounds h0 h0 h0, rfl⟩
  | [p] => exact ⟨_, 0, 0, [0, 0], decodeFields_of_digits o.code_bounds (hd p) h0 h0, rfl⟩
  | [p, q] => exact ⟨_, _, 0, [0], decodeFields_of_digits o.code_bounds (hd p) (hd q) h0, rfl⟩
  | [p, q, r] => exact ⟨_, _, _, [], decodeFields_of_digits o.code_bounds (hd p) (hd q) (hd r), rfl⟩

theorem paramsOf_eq (o : Op) (f : Fields) (words : List Int) :
    paramsOf o f words = (List.zipWith (fun d w => ⟨modeOf d, w⟩) f.digits words).take o.arity := rfl

/-- Digits and words that begin with those of parameters, as many as the operation has, give these parameters. -/
theorem paramsOf_of_digits {o : Op} {f : Fields} {ps : List Param} {unused : List Int}
    (hd : f.digits = ps.map (fun p => p.mode.digit) ++ unused) (ho : ps.length = o.arity) (rest : List Int) :
    paramsOf o f (ps.map Param.word ++ rest) = ps := by
  have hself : List.zipWith (fun d w => (⟨modeOf d, w⟩ : Param)) (ps.map fun p => p.mode.digit)
      (ps.map Param.word) = ps := by
    simp only [List.zipWith_map, List.zipWith_self, modeOf_digit]
    exact List.map_id ps
  rw [paramsOf_eq, hd, List.zipWith_append (by simp), hself, ← ho, List.take_left]

/-- The family `Build`, for every instruction. -/
theorem build_statement (i : Instr) : Laws.Build.Statement i := by
  cases i
  exacts [Laws.Build.add .., Laws.Build.mul .., Laws.Build.inp _, Laws.Build.out _, Laws.Build.jt ..,
    Laws.Build.jf .., Laws.Build.lt .., Laws.Build.eq .., Laws.Build.arb _, Laws.Build.halt]

theorem Op.arity_le_three (o : Op) : o.arity ≤ 3 := by
  cases o <;> decide

/-- Settles O2: the canonical word's opcode selects the operation, and its digits with the words after it are
the parameters. -/
theorem decodeOfEncodeIsTheInstruction : Obligations.DecodeOfEncodeIsTheInstruction := by
  intro v i rest hv
  obtain ⟨hbuild, hlen⟩ := build_statement i
  obtain ⟨unused, hop, hdigits⟩ := decodeFields_digitsWord i.op (hlen ▸ i.op.arity_le_three)
  have hps : paramsOf i.op (decodeFields i.word) (i.params.map Param.word ++ rest) = i.params :=
    paramsOf_of_digits hdigits hlen rest
  calc decode v (i.word :: (i.params.map Param.word ++ rest))
    _ = .ok (i, (i.params.map Param.word ++ rest).drop i.op.arity) :=
      decode_of_build (hop ▸ opOf_code hv) (by rw [hps, hbuild])
    _ = .ok (i, rest) := by rw [List.drop_left' (by rw [List.length_map, hlen])]

/-- Settles O1: four of the words are canonical, and the others are evaluated. -/
theorem wordsOfEveryFormatDecode : Obligations.WordsOfEveryFormatDecode :=
  ⟨decodeOfEncodeIsTheInstruction .simple (.mul ⟨.position, 4⟩ ⟨.immediate, 3⟩ ⟨.position, 4⟩) [33] rfl,
    decodeOfEncodeIsTheInstruction .advanced (.add ⟨.immediate, 5⟩ ⟨.immediate, 6⟩ ⟨.relative, 2⟩) [] rfl,
    decodeOfEncodeIsTheInstruction .advanced (.inp ⟨.relative, 2⟩) [] rfl,
    rfl, rfl,
    decodeOfEncodeIsTheInstruction .advanced (.arb ⟨.immediate, -5⟩) [] rfl,
    rfl, rfl, rfl⟩

/-! ## Digits without a parameter -/

/-- Settles O6: the parameters are made of as many digits as the operation has parameters. -/
theorem unusedDigitsAreIgnored : Obligations.UnusedDigitsAreIgnored := by
  intro v iw iw' words h h' hop hdigits
  refine decode_congr (by rw [opcode_of_nonneg h, opcode_of_nonneg h', hop]) fun o ho => ?_
  rw [opcode_of_nonneg h] at ho
  have htake : (decodeFields iw).digits.take o.arity = (decodeFields iw').digits.take o.arity := by
    rw [digits_decodeFields h, digits_decodeFields h', ← List.map_take, ← List.map_take, List.take_range]
    refine List.map_congr_left fun k hk => hdigits o ho k ?_
    exact (List.mem_range.mp hk).trans_le (min_le_left ..)
  rw [paramsOf_eq, paramsOf_eq, List.take_zipWith, List.take_zipWith, htake]

/-! ## Words that are no instruction -/

open Machine

/-- The branches of `opOf` are the rows of the opcode table. -/
theorem opOf_some_iff {v : Variant} {opcode : Int} {o : Op} :
    opOf v opcode = some o ↔ o.existsIn v = true ∧ o.code = opcode := by
  refine ⟨fun h => ?_, fun ⟨hv, hc⟩ => hc ▸ opOf_code hv⟩
  unfold opOf at h
  repeat' split at h
  all_goals
    cases h
    all_goals
      subst_vars
      exact ⟨rfl, rfl⟩

theorem legalOpcode_iff {v : Variant} {opcode : Int} :
    legalOpcode v opcode ↔ ∃ o : Op, o.existsIn v = true ∧ o.code = opcode := by
  unfold legalOpcode
  constructor
  · rintro (⟨h1, h8⟩ | ⟨rfl, rfl⟩ | rfl)
    · interval_cases opcode
      exacts [⟨.add, rfl, rfl⟩, ⟨.mul, rfl, rfl⟩, ⟨.inp, rfl, rfl⟩, ⟨.out, rfl, rfl⟩, ⟨.jt, rfl, rfl⟩,
        ⟨.jf, rfl, rfl⟩, ⟨.lt, rfl, rfl⟩, ⟨.eq, rfl, rfl⟩]
    · exact ⟨.arb, rfl, rfl⟩
    · exact ⟨.halt, rfl, rfl⟩
  · rintro ⟨o, hv, rfl⟩
    cases o with
    | arb =>
      cases v with
      | simple => cases hv
      | advanced => exact .inr (.inl ⟨rfl, rfl⟩)
    | halt => exact .inr (.inr rfl)
    | add | mul | inp | out | jt | jf | lt | eq => exact .inl (by decide)

theorem opOf_eq_none_iff {v : Variant} {opcode : Int} :
    opOf v opcode = none ↔ ¬ legalOpcode v opcode := by
  simp only [Option.eq_none_iff_forall_ne_some, ne_eq, opOf_some_iff, legalOpcode_iff, not_exists]

/-- Only positive opcodes are legal. -/
theorem not_legalOpcode_of_nonpos {v : Variant} {opcode : Int} (h : opcode ≤ 0) :
    ¬ legalOpcode v opcode := by
  unfold legalOpcode
  omega

/-- The opcode field of a negative word (D4). -/
theorem opcode_bounds_of_neg {iw : Int} (h : iw < 0) :
    -99 ≤ (decodeFields iw).opcode ∧ (decodeFields iw).opcode ≤ 0 := by
  have : (decodeFields iw).opcode = -(-iw % 100) :=
    calc iw.tmod 100 = -((-iw).tmod 100) := by rw [Int.neg_tmod, neg_neg]
      _ = -(-iw % 100) := by rw [Int.tmod_eq_emod_of_nonneg (by omega)]
  omega

namespace Machine

/-- An instruction word without an operation faults when it is executed (R68). -/
theorem execOne_of_opOf_none {s : State} {iw : Int} (hiw : s.memRead s.pc = .ok iw)
    (h : opOf s.variant (decodeFields iw).opcode = none) :
    execOne s = .next (s.enterFault .invalidOpCode) := by
  have hfetch : s.fetch = .error .invalidOpCode := by simp only [State.fetch, hiw, h]
  simp only [execOne, hfetch, raise]

/-- Settles O4: a negative word's opcode field is not positive, and only positive ones are legal. -/
theorem negativeWordsAreIllegal : Obligations.NegativeWordsAreIllegal := by
  intro iw hneg
  have hb := opcode_bounds_of_neg hneg
  have hnone : ∀ v, opOf v (decodeFields iw).opcode = none := fun v =>
    opOf_eq_none_iff.mpr (not_legalOpcode_of_nonpos hb.2)
  exact ⟨hb, fun v _ => decode_of_opOf_none (hnone v), fun s hs => execOne_of_opOf_none hs (hnone s.variant)⟩

/-- Settles O5: an unset sparse address reads 0, which is no opcode. -/
theorem illegalOpcodesFault : Obligations.IllegalOpcodesFault := by
  refine ⟨fun v iw words => decode_invalidOpCode_iff.trans opOf_eq_none_iff, fun s iw hs hill => ?_,
    fun s hv hfree => ?_⟩
  · exact execOne_of_opOf_none hs (opOf_eq_none_iff.mpr hill)
  · obtain ⟨-, hunset, -⟩ := sparseMemory s hv s.pc
    exact execOne_of_opOf_none (hunset hfree) (opOf_eq_none_iff.mpr (not_legalOpcode_of_nonpos le_rfl))

end Machine

end Sys2Proof
end

section
/-! PROOFS. Destinations: an instruction whose destination is Immediate (R72). -/

namespace Sys2Proof.Machine

theorem withWrite_immediate (s : State) (w : Int) (k : Int → Result) :
    withWrite s ⟨.immediate, w⟩ k = raise .invalidWriteTarget s := rfl

theorem exec_inp_immediate (s : State) (w : Int) :
    exec (.inp ⟨.immediate, w⟩) s = raise .invalidWriteTarget s := by
  rw [exec, execInp, withWrite_immediate]

/-- Two sources and an Immediate destination: the first source that does not resolve faults, or else the
destination does. -/
theorem binary_immediate (s : State) (a b : Param) (w : Int) (k : Int → Int → Int → Result) :
    let r := withRead s a fun x => withRead s b fun y => withWrite s ⟨.immediate, w⟩ (k x y)
    (∃ c, r = raise c s) ∧
      ((∃ x y, s.resolveRead a = .ok x ∧ s.resolveRead b = .ok y) → r = raise .invalidWriteTarget s) := by
  simp only [withWrite_immediate]
  refine ⟨?_, fun ⟨x, y, hx, hy⟩ => by rw [withRead_ok hx, withRead_ok hy]⟩
  cases hx : s.resolveRead a with
  | error c => exact ⟨c, withRead_error hx _⟩
  | ok x =>
    rw [withRead_ok hx]
    cases hy : s.resolveRead b with
    | error c => exact ⟨c, withRead_error hy _⟩
    | ok y => exact ⟨_, withRead_ok hy _⟩

/-- Settles O33: ADD, MUL, LT and EQ are two sources and a destination, IN is a destination alone. -/
theorem immediateDestinationsFault : Obligations.ImmediateDestinationsFault := by
  intro s a b w i hi
  by_cases hinp : i = .inp ⟨.immediate, w⟩
  · subst hinp
    have hfault : exec (.inp ⟨.immediate, w⟩) s = .next (s.enterFault .invalidWriteTarget) :=
      exec_inp_immediate s w
    exact ⟨⟨_, hfault⟩, fun _ => hfault⟩
  · have ⟨k, hk⟩ : ∃ k : Int → Int → Int → Result, exec i s =
        withRead s a fun x => withRead s b fun y => withWrite s ⟨.immediate, w⟩ (k x y) := by
      rcases hi with rfl | rfl | rfl | rfl | rfl
      exacts [⟨_, rfl⟩, ⟨_, rfl⟩, ⟨_, rfl⟩, ⟨_, rfl⟩, absurd rfl hinp]
    obtain ⟨hfault, htarget⟩ := binary_immediate s a b w k
    rw [hk]
    exact ⟨hfault, fun h => htarget (h.resolve_left hinp)⟩

end Sys2Proof.Machine
end

section
/-! PROOFS. Program text: the tokens of rendered words, and their way back through the loader (R76, R202 to
R204). -/

namespace Sys2Proof.Machine.Loader

/-! ## The characters of a token -/

theorem isDigit_and_digitValue_of_lt_ten {d : Nat} (h : d < 10) :
    isDigit (Char.ofNat ('0'.toNat + d)) = true ∧ digitValue (Char.ofNat ('0'.toNat + d)) = d := by
  revert d
  decide

/-- A character that is no digit differs from every digit. -/
theorem ne_of_isDigit {c d : Char} (hc : isDigit c = true) (hd : isDigit d = false) : c ≠ d := by
  rintro rfl
  rw [hc] at hd
  cases hd

/-- The characters of a rendered word. -/
def IsTokenChar (c : Char) : Prop := isDigit c = true ∨ c = '-'

theorem IsTokenChar.ne_comma {c : Char} (h : IsTokenChar c) : c ≠ ',' := by
  rcases h with h | rfl
  · exact ne_of_isDigit h (by decide)
  · decide

theorem IsTokenChar.not_space {c : Char} (h : IsTokenChar c) : isSpace c = false := by
  rcases h with h | rfl
  · have hne : ∀ d, isDigit d = false → c ≠ d := fun _ => ne_of_isDigit h
    simp [isSpace, hne ' ' (by decide), hne '\t' (by decide), hne '\n' (by decide), hne '\r' (by decide)]
  · decide

/-! ## The digits of a number -/

/-- Reading the digits written of a number gives the number back, before the digits already written. -/
theorem digitsFrom_digitsInto {fuel n : Nat} (h : n < fuel) (acc : List Char) :
    digitsFrom 0 (digitsInto fuel n acc) = digitsFrom n acc := by
  induction fuel generalizing n acc with
  | zero => omega
  | succ fuel ih =>
    obtain ⟨hdigit, hvalue⟩ := isDigit_and_digitValue_of_lt_ten (Nat.mod_lt n (by decide : 0 < 10))
    have hread : ∀ m, digitsFrom m (Char.ofNat ('0'.toNat + n % 10) :: acc) =
        digitsFrom (m * 10 + n % 10) acc := fun m => by rw [digitsFrom, if_pos hdigit, hvalue]
    simp only [digitsInto]
    split
    · rw [hread, show 0 * 10 + n % 10 = n by omega]
    · rw [ih (by omega), hread, show n / 10 * 10 + n % 10 = n by omega]

/-- One or more digits (R203). -/
def IsNumeral (ds : List Char) : Prop := ds ≠ [] ∧ ∀ c ∈ ds, isDigit c = true

theorem isNumeral_cons {c : Char} {ds : List Char} (hc : isDigit c = true)
    (hds : ∀ c ∈ ds, isDigit c = true) : IsNumeral (c :: ds) :=
  ⟨by simp, List.forall_mem_cons.mpr ⟨hc, hds⟩⟩

theorem isNumeral_digitsInto (fuel n : Nat) {acc : List Char} (hacc : ∀ c ∈ acc, isDigit c = true) :
    IsNumeral (digitsInto (fuel + 1) n acc) := by
  induction fuel generalizing n acc with
  | zero =>
    simpa only [digitsInto, ite_self] using
      isNumeral_cons (isDigit_and_digitValue_of_lt_ten (Nat.mod_lt n (by decide))).1 hacc
  | succ fuel ih =>
    have hcons := isNumeral_cons (isDigit_and_digitValue_of_lt_ten (Nat.mod_lt n (by decide))).1 hacc
    rw [digitsInto]
    split
    · exact hcons
    · exact ih _ hcons.2

/-! ## Tokens -/

theorem trimLeft_of_no_space {t : List Char} (h : ∀ c ∈ t, isSpace c = false) : trimLeft t = t := by
  cases t with
  | nil => rfl
  | cons c cs => simp [trimLeft, h c]

theorem trim_of_no_space {t : List Char} (h : ∀ c ∈ t, isSpace c = false) : trim t = t := by
  have hrev : ∀ c ∈ t.reverse, isSpace c = false := fun c hc => h c (List.mem_reverse.mp hc)
  rw [trim, trimLeft_of_no_space h, trimLeft_of_no_space hrev, List.reverse_reverse]

theorem parseDigits_of_ne_nil {ds : List Char} (h : ds ≠ []) : parseDigits ds = digitsFrom 0 ds := by
  cases ds with
  | nil => exact absurd rfl h
  | cons c cs => rfl

theorem parseToken_numeral {ds : List Char} {n : Nat} (h : IsNumeral ds) (hn : digitsFrom 0 ds = some n) :
    parseToken ds = some (n : Int) := by
  obtain ⟨hne, hds⟩ := h
  unfold parseToken
  rw [trim_of_no_space fun c hc => IsTokenChar.not_space (.inl (hds c hc))]
  split
  · exact absurd (hds '-' (by simp)) (by decide)
  · rw [parseDigits_of_ne_nil hne, hn]
    rfl

theorem parseToken_neg_numeral {ds : List Char} {n : Nat} (h : IsNumeral ds)
    (hn : digitsFrom 0 ds = some n) : parseToken ('-' :: ds) = some (-(n : Int)) := by
  obtain ⟨hne, hds⟩ := h
  have hchars : ∀ c ∈ '-' :: ds, IsTokenChar c :=
    List.forall_mem_cons.mpr ⟨.inr rfl, fun c hc => .inl (hds c hc)⟩
  unfold parseToken
  simp only [trim_of_no_space fun c hc => (hchars c hc).not_space, parseDigits_of_ne_nil hne, hn]
  rfl

/-- The digits a rendered word is made of. -/
theorem renderWord_digits (n : Nat) :
    IsNumeral (digitsInto (n + 1) n []) ∧ digitsFrom 0 (digitsInto (n + 1) n []) = some n :=
  ⟨isNumeral_digitsInto n n (by simp), digitsFrom_digitsInto n.lt_succ_self []⟩

theorem parseToken_renderWord (w : Int) : parseToken (renderWord w) = some w := by
  obtain ⟨hnum, hval⟩ := renderWord_digits w.natAbs
  unfold renderWord
  split
  · rw [parseToken_neg_numeral hnum hval, Option.some_inj]
    omega
  · rw [parseToken_numeral hnum hval, Option.some_inj]
    omega

theorem isTokenChar_of_mem_renderWord {w : Int} {c : Char} (h : c ∈ renderWord w) : IsTokenChar c := by
  have hdigits := (renderWord_digits w.natAbs).1.2
  unfold renderWord at h
  split at h
  · obtain rfl | h := List.mem_cons.mp h
    · exact .inr rfl
    · exact .inl (hdigits c h)
  · exact .inl (hdigits c h)

/-! ## Texts -/

theorem splitCommas_ne_nil (t : List Char) : splitCommas t ≠ [] := by
  cases t with
  | nil => simp [splitCommas]
  | cons c cs =>
    rw [splitCommas]
    split
    · simp
    · split <;> simp

theorem splitCommas_comma (t : List Char) : splitCommas (',' :: t) = [] :: splitCommas t := by
  rw [splitCommas]
  split
  · next h => exact absurd h (splitCommas_ne_nil t)
  · next h => rw [if_pos rfl, h]

/-- Characters that are no commas belong to the first piece of the text they stand before. -/
theorem splitCommas_append {t r u : List Char} {us : List (List Char)} (ht : ∀ c ∈ t, c ≠ ',')
    (hr : splitCommas r = u :: us) : splitCommas (t ++ r) = (t ++ u) :: us := by
  induction t with
  | nil => exact hr
  | cons c t ih =>
    obtain ⟨hc, ht⟩ := List.forall_mem_cons.mp ht
    simp only [List.cons_append, splitCommas, ih ht, if_neg hc]

theorem splitCommas_render {words : List Int} (h : words ≠ []) :
    splitCommas (render words) = words.map renderWord := by
  have hw : ∀ w, ∀ c ∈ renderWord w, c ≠ ',' := fun w c hc => (isTokenChar_of_mem_renderWord hc).ne_comma
  fun_induction render words with
  | case1 => exact absurd rfl h
  | case2 w => simpa using splitCommas_append (hw w) (rfl : splitCommas [] = [[]])
  | case3 w w' ws ih =>
    rw [splitCommas_append (hw w) ((splitCommas_comma _).trans (congrArg _ (ih (by simp)))), List.append_nil]
    rfl

theorem parseTokens_renderWord {v : Variant} {words : List Int} (h : ∀ w ∈ words, accepts v w = true) :
    parseTokens v (words.map renderWord) = .ok words := by
  induction words with
  | nil => rfl
  | cons w ws ih =>
    obtain ⟨hw, hws⟩ := List.forall_mem_cons.mp h
    simp only [List.map_cons, parseTokens, parseToken_renderWord, if_pos hw, ih hws]

/-- Settles O55: the text's pieces between commas are the rendered words, and each is a token whose value is its
word. -/
theorem loadOfRenderedWords : Obligations.LoadOfRenderedWords := by
  intro v words hne hacc
  rw [parse, splitCommas_render hne, parseTokens_renderWord hacc]

end Sys2Proof.Machine.Loader
end

section
/-! PROOFS. Operands: the table of opcodes (R82), and what a parameter resolves to in each mode (R83, R85 to
R87). -/

namespace Sys2Proof

/-! ## The table of opcodes -/

/-- Settles O7: both sides have the same rows, and the variant matters for opcode 9 alone. -/
theorem opInfoTable : Obligations.OpInfoTable := by
  intro v opcode
  unfold opOf
  by_cases h9 : opcode = 9
  · subst h9
    cases v <;> rfl
  · simp only [h9, false_and, if_false, apply_ite (Option.map _), Option.map_some, Option.map_none]
    rfl

end Sys2Proof

namespace Sys2Proof.Machine

/-! ## Modes -/

/-- A digit that is negative or above 2 names no mode (R83). -/
theorem modeOf_of_out_of_range {d : Int} (h : d < 0 ∨ 3 ≤ d) : ∃ k, modeOf d = .reserved k := by
  unfold modeOf Config.modePosition Config.modeImmediate Config.modeRelative
  rw [if_neg (by omega), if_neg (by omega), if_neg (by omega)]
  exact ⟨_, rfl⟩

namespace State

variable {s : State}

/-- A mode the variant does not have faults wherever it is consulted (R70). -/
theorem resolve_of_not_existsIn {m : Mode} (h : m.existsIn s.variant = false) (p : Int) :
    s.resolveRead ⟨m, p⟩ = .error .invalidAddressingMode ∧
    s.resolveWrite ⟨m, p⟩ = .error .invalidAddressingMode := by
  cases m with
  | position | immediate => cases h
  | reserved k => exact ⟨rfl, rfl⟩
  | relative =>
    cases hv : s.variant with
    | simple => simp only [resolveRead, resolveWrite, hv, and_self]
    | advanced => rw [hv] at h; cases h

theorem resolveRead_relative (hv : s.variant = .advanced) (p : Int) :
    s.resolveRead ⟨.relative, p⟩ = s.memRead (s.rb + p) := by
  simp only [resolveRead, hv]

theorem resolveWrite_relative (hv : s.variant = .advanced) (p : Int) :
    s.resolveWrite ⟨.relative, p⟩ = s.checkAddress (s.rb + p) := by
  simp only [resolveWrite, hv]

theorem checkAddress_error {a : Int} {c : FaultCode} :
    s.checkAddress a = .error c ↔ s.hasAddress a = false ∧ c = .outOfBounds := by
  unfold checkAddress
  split <;> rename_i h <;> simp [h, eq_comm (a := c)]

end State

open State

/-- Settles O11: the digits 0 to 2 name the modes, and every other digit is reserved. -/
theorem modeDigits : Obligations.ModeDigits := by
  refine ⟨rfl, rfl, rfl, fun _ => ⟨rfl, rfl⟩, rfl, rfl, fun d v h => ?_, fun s d p h => ?_⟩
  · obtain ⟨k, hk⟩ := modeOf_of_out_of_range h
    rw [hk]
    rfl
  · exact resolve_of_not_existsIn h p

/-- Settles O12: Relative is the one mode whose value depends on the variant. -/
theorem readParameters : Obligations.ReadParameters := by
  intro s p
  refine ⟨rfl, rfl, fun hv => resolveRead_relative hv p, fun hv => ?_, fun k => rfl⟩
  exact (resolve_of_not_existsIn (m := .relative) (by rw [hv]; rfl) p).1

/-- Settles O13: every address passes the bound check in the advanced variant, those of the allocation in the
simple one. -/
theorem writeTargets : Obligations.WriteTargets := by
  intro s p
  refine ⟨rfl, fun k => rfl, fun hv => ?advanced, fun hv => ?simple⟩
  case advanced =>
    have hpass (a : Int) : s.checkAddress a = .ok a := checkAddress_ok.mpr ⟨hasAddress_advanced hv a, rfl⟩
    exact ⟨hpass p, (resolveWrite_relative hv p).trans (hpass _)⟩
  case simple =>
    rw [← hasAddress_simple hv p, Bool.not_eq_true]
    refine ⟨(resolve_of_not_existsIn (m := .relative) (by rw [hv]; rfl) p).2, fun ha => ?_, fun ha => ?_⟩
    · exact checkAddress_ok.mpr ⟨ha, rfl⟩
    · exact checkAddress_error.mpr ⟨ha, rfl⟩

end Sys2Proof.Machine
end

section
/-! PROOFS. Loop: the machine, which decodes a whole instruction before it executes it, against the loop of R88,
which fetches and resolves each parameter before the next. -/

namespace Sys2Proof.Machine

open State

/-! ## The resolution of several parameters -/

/-- Resolution of parameters in order, up to the first that faults (R89). -/
def State.resolveAll (s : State) : List (Kind × Param) → Except FaultCode (List Int)
  | [] => .ok []
  | kp :: rest =>
    match s.resolve kp with
    | .error c => .error c
    | .ok v =>
      match resolveAll s rest with
      | .error c => .error c
      | .ok vs => .ok (v :: vs)

/-- Go on with the values of parameters, or raise the fault of their resolution. -/
def withAll (s : State) (ps : List (Kind × Param)) (k : List Int → Result) : Result :=
  match s.resolveAll ps with
  | .error c => raise c s
  | .ok vs => k vs

theorem withAll_nil (s : State) (k : List Int → Result) : withAll s [] k = k [] := rfl

theorem withAll_cons (s : State) (kp : Kind × Param) (ps : List (Kind × Param)) (k : List Int → Result) :
    withAll s (kp :: ps) k =
      match s.resolve kp with
      | .error c => raise c s
      | .ok v => withAll s ps fun vs => k (v :: vs) := by
  simp only [withAll, resolveAll]
  cases s.resolve kp with
  | error c => rfl
  | ok v => cases s.resolveAll ps <;> rfl

theorem withAll_read (s : State) (p : Param) (ps : List (Kind × Param)) (k : List Int → Result) :
    withAll s ((.read, p) :: ps) k = withRead s p fun v => withAll s ps fun vs => k (v :: vs) :=
  withAll_cons s (.read, p) ps k

theorem withAll_write (s : State) (p : Param) (ps : List (Kind × Param)) (k : List Int → Result) :
    withAll s ((.write, p) :: ps) k = withWrite s p fun d => withAll s ps fun vs => k (d :: vs) :=
  withAll_cons s (.write, p) ps k

theorem boolWord_decide (p : Prop) [Decidable p] : boolWord (decide p) = if p then 1 else 0 := by
  simp only [boolWord, decide_eq_true_eq]

/-- An instruction of the variant resolves its parameters in order and has the effect of R88 on their values. -/
theorem exec_eq_withAll {i : Instr} {s : State} (h : i.op.existsIn s.variant = true) :
    exec i s = withAll s (i.op.kinds.zip i.params) fun vs => effectOf i.op vs s := by
  cases i <;> simp only [Instr.op, Op.kinds, Instr.params, List.zip_cons_cons, List.zip_nil_right,
    withAll_read, withAll_write, withAll_nil]
  case add | mul | jt | jf | inp | out | halt => rfl
  case lt | eq =>
    simp only [exec, execLt, execEq, boolWord_decide]
    rfl
  case arb a =>
    cases hv : s.variant with
    | simple => rw [hv] at h; cases h
    | advanced => simp only [exec, execArb, hv]; rfl

/-! ## The words of an instruction -/

/-- The parameters that kinds, mode digits and words make, as many as there are words. -/
def paramsAt (kds : List (Kind × Int)) (words : List Int) : List (Kind × Param) :=
  List.zipWith (fun kd w => (kd.1, ⟨modeOf kd.2, w⟩)) kds words

/-- A word that can be fetched is read before those that follow it. -/
theorem State.readWords_of_memRead {s : State} {k : Nat} {w : Int} (hw : s.memRead (s.pc + k) = .ok w)
    (n : Nat) : s.readWords (s.pc + k) (n + 1) = w :: s.readWords (s.pc + (k + 1 : Nat)) n := by
  simp only [readWords, hw, Nat.cast_add, Nat.cast_one, add_assoc]

/-- Where every parameter word is there, the loop of R88 resolves the parameters they make. -/
theorem resolveLoop_of_complete {s : State} {k : Nat} {kds : List (Kind × Int)}
    (h : (s.readWords (s.pc + k) kds.length).length = kds.length) :
    resolveLoop s k kds = s.resolveAll (paramsAt kds (s.readWords (s.pc + k) kds.length)) := by
  induction kds generalizing k with
  | nil => rfl
  | cons kd kds ih =>
    cases hw : s.memRead (s.pc + k) with
    | error c => simp [readWords, hw] at h
    | ok w =>
      simp only [List.length_cons, readWords_of_memRead hw, Nat.add_right_cancel_iff] at h ⊢
      simp only [resolveLoop, hw, ih h]
      rfl

/-- Where a parameter word is missing, the loop of R88 ends with the fault of the parameters before it, or of
the fetch. -/
theorem resolveLoop_of_truncated {s : State} {k : Nat} {kds : List (Kind × Int)}
    (h : (s.readWords (s.pc + k) kds.length).length < kds.length) :
    resolveLoop s k kds =
      .error (s.truncatedFault (paramsAt kds (s.readWords (s.pc + k) kds.length))) := by
  induction kds generalizing k with
  | nil => simp at h
  | cons kd kds ih =>
    cases hw : s.memRead (s.pc + k) with
    | error c =>
      obtain ⟨-, rfl⟩ := memRead_error.mp hw
      simp only [resolveLoop, List.length_cons, readWords, hw]
      rfl
    | ok w =>
      simp only [List.length_cons, readWords_of_memRead hw, Nat.add_lt_add_iff_right] at h ⊢
      simp only [resolveLoop, hw, ih h, paramsAt, List.zipWith_cons_cons, truncatedFault]
      cases s.resolve (kd.1, ⟨modeOf kd.2, w⟩) <;> rfl

theorem length_paramsOf {o : Op} {f : Fields} {words : List Int} (h : words.length ≤ o.arity) :
    (paramsOf o f words).length = words.length := by
  have := o.arity_le_three
  rw [paramsOf_eq, List.length_take, List.length_zipWith]
  simp only [Fields.digits, List.length_cons, List.length_nil]
  omega

theorem length_kinds_zip_digits (o : Op) (f : Fields) : (o.kinds.zip f.digits).length = o.arity := by
  rw [List.length_zip]
  exact min_eq_left o.arity_le_three

theorem zip_take_zipWith_eq_paramsAt (ks : List Kind) (ds words : List Int) :
    ks.zip ((List.zipWith (fun d w => ⟨modeOf d, w⟩) ds words).take ks.length) =
      paramsAt (ks.zip ds) words := by
  induction ks generalizing ds words with
  | nil => rfl
  | cons k ks ih =>
    cases ds with
    | nil => rfl
    | cons d ds =>
      cases words with
      | nil => rfl
      | cons w words => exact congrArg _ (ih ds words)

/-- The kinds of an operation with its decoded parameters are what its kinds, digits and words make. -/
theorem kinds_zip_paramsOf (o : Op) (f : Fields) (words : List Int) :
    o.kinds.zip (paramsOf o f words) = paramsAt (o.kinds.zip f.digits) words :=
  zip_take_zipWith_eq_paramsAt o.kinds f.digits words

/-- Exactly as many parameters as an operation has build an instruction. -/
theorem exists_build_iff {o : Op} {ps : List Param} :
    (∃ i, o.build ps = some i) ↔ ps.length = o.arity := by
  constructor
  · rintro ⟨i, hi⟩
    obtain ⟨rfl, rfl⟩ := build_some hi
    exact (build_statement i).2
  · intro h
    cases o with
    | add | mul | lt | eq =>
      obtain ⟨a, b, dst, rfl⟩ := List.length_eq_three.mp h
      exact ⟨_, rfl⟩
    | jt | jf =>
      obtain ⟨a, b, rfl⟩ := List.length_eq_two.mp h
      exact ⟨_, rfl⟩
    | inp | out | arb =>
      obtain ⟨a, rfl⟩ := List.length_eq_one_iff.mp h
      exact ⟨_, rfl⟩
    | halt =>
      obtain rfl := List.length_eq_zero_iff.mp h
      exact ⟨_, rfl⟩

/-- The words after `PC` that an operation's parameters are fetched from, as far as they exist. -/
def State.paramWords (s : State) (o : Op) : List Int := s.readWords (s.pc + 1) o.arity

/-- The parameters of the operation at `PC` whose words exist. -/
def State.paramsPresent (s : State) (o : Op) (iw : Int) : List (Kind × Param) :=
  paramsAt (o.kinds.zip (decodeFields iw).digits) (s.paramWords o)

theorem State.length_paramWords_le (s : State) (o : Op) : (s.paramWords o).length ≤ o.arity :=
  s.length_readWords _ _

/-! ## The two readings of R88 -/

section readings

variable {s : State} {iw : Int} {o : Op} (hiw : s.memRead s.pc = .ok iw)
  (ho : opOf s.variant (decodeFields iw).opcode = some o)
include hiw ho

theorem execOne_of_complete (h : (s.paramWords o).length = o.arity) :
    execOne s = withAll s (s.paramsPresent o iw) fun vs => effectOf o vs s := by
  obtain ⟨i, hi⟩ : ∃ i, o.build (paramsOf o (decodeFields iw) (s.paramWords o)) = some i :=
    exists_build_iff.mpr ((length_paramsOf h.le).trans h)
  obtain ⟨hop, hps⟩ := build_some hi
  have hexists : i.op.existsIn s.variant = true := hop ▸ (opOf_some_iff.mp ho).1
  rw [execOne, fetch_of_words hiw ho hi, paramsPresent, ← kinds_zip_paramsOf, ← hps, ← hop]
  exact exec_eq_withAll hexists

theorem execOne_of_truncated (h : (s.paramWords o).length < o.arity) :
    execOne s = raise (s.truncatedFault (s.paramsPresent o iw)) s := by
  have hb : o.build (paramsOf o (decodeFields iw) (s.paramWords o)) = none :=
    Option.eq_none_iff_forall_ne_some.mpr fun i hi =>
      h.ne ((length_paramsOf h.le).symm.trans (exists_build_iff.mp ⟨i, hi⟩))
  rw [paramWords] at hb
  simp only [execOne, State.fetch, hiw, ho, decode, hb, kinds_zip_paramsOf, paramsPresent, paramWords]

theorem execOneByRule_of_opOf :
    execOneByRule s =
      match resolveLoop s 1 (o.kinds.zip (decodeFields iw).digits) with
      | .error c => raise c s
      | .ok vs => effectOf o vs s := by
  simp only [execOneByRule, hiw, ho]
  rfl

theorem execOneByRule_of_complete (h : (s.paramWords o).length = o.arity) :
    execOneByRule s = withAll s (s.paramsPresent o iw) fun vs => effectOf o vs s := by
  have hlen := length_kinds_zip_digits o (decodeFields iw)
  have hloop := resolveLoop_of_complete (s := s) (k := 1) (kds := o.kinds.zip (decodeFields iw).digits)
  rw [hlen] at hloop
  rw [execOneByRule_of_opOf hiw ho, hloop h]
  rfl

theorem execOneByRule_of_truncated (h : (s.paramWords o).length < o.arity) :
    execOneByRule s = raise (s.truncatedFault (s.paramsPresent o iw)) s := by
  have hlen := length_kinds_zip_digits o (decodeFields iw)
  have hloop := resolveLoop_of_truncated (s := s) (k := 1) (kds := o.kinds.zip (decodeFields iw).digits)
  rw [hlen] at hloop
  rw [execOneByRule_of_opOf hiw ho, hloop h]
  rfl

end readings

/-- Settles O34. Where all parameter words exist, both resolve the parameters in order and have the same effect;
where one is missing, both raise the fault of the parameters before it or of the fetch. -/
theorem execOneIsTheLoopOfTheRule : Obligations.ExecOneIsTheLoopOfTheRule := by
  intro s
  cases hiw : s.memRead s.pc with
  | error c => simp only [execOne, execOneByRule, State.fetch, hiw]
  | ok iw =>
    cases ho : opOf s.variant (decodeFields iw).opcode with
    | none => simp only [execOne_of_opOf_none hiw ho, execOneByRule, hiw, ho, raise]
    | some o =>
      obtain h | h := (s.length_paramWords_le o).eq_or_lt
      · rw [execOne_of_complete hiw ho h, execOneByRule_of_complete hiw ho h]
      · rw [execOne_of_truncated hiw ho h, execOneByRule_of_truncated hiw ho h]

end Sys2Proof.Machine
end

section
/-! PROOFS. Decoded steps: words in memory that decode to an instruction are fetched as it, and a step runs it. -/

namespace Sys2Proof.Machine

open State

/-- What a successful decoding says: the instruction's operation is the word's, built with its parameters. -/
theorem decode_ok {v : Variant} {iw : Int} {words rest : List Int} {i : Instr}
    (h : decode v (iw :: words) = .ok (i, rest)) :
    opOf v (decodeFields iw).opcode = some i.op ∧
      i.op.build (paramsOf i.op (decodeFields iw) words) = some i := by
  simp only [decode] at h
  split at h
  · cases h
  · next o ho =>
    split at h
    · next j hj =>
      cases h
      obtain ⟨rfl, -⟩ := build_some hj
      exact ⟨ho, hj⟩
    · cases h

/-- Words that stand in memory are the words read. -/
theorem State.readWords_eq_take {s : State} {a : Int} {k : Nat} {words : List Int}
    (h : ∀ j : Nat, j < k → ∃ w, words[j]? = some w ∧ s.memRead (a + j) = .ok w) :
    s.readWords a k = words.take k := by
  induction k generalizing a words with
  | zero => rfl
  | succ k ih =>
    obtain ⟨w, hw, hr⟩ := h 0 k.succ_pos
    cases words with
    | nil => cases hw
    | cons w' words =>
      cases hw
      have hrest : s.readWords (a + 1) k = words.take k := ih fun j hj => by
        obtain ⟨w, hw, hr⟩ := h (j + 1) (by omega)
        refine ⟨w, hw, ?_⟩
        rwa [show a + 1 + j = a + (j + 1 : Nat) by push_cast; ring]
      rw [Int.natCast_zero, add_zero] at hr
      simp only [State.readWords, hr, hrest, List.take_succ_cons]

theorem paramsOf_take (o : Op) (f : Fields) (words : List Int) :
    paramsOf o f (words.take o.arity) = paramsOf o f words := by
  rw [paramsOf_eq, paramsOf_eq, List.take_zipWith, List.take_zipWith, List.take_take, min_self]

/-- The words at `PC` are fetched as the instruction they decode to. -/
theorem State.fetch_of_decode {s : State} {iw : Int} {i : Instr} {words rest : List Int}
    (hmem : ∀ k : Nat, k ≤ i.op.arity → ∃ w, (iw :: words)[k]? = some w ∧ s.memRead (s.pc + k) = .ok w)
    (hdec : decode s.variant (iw :: words) = .ok (i, rest)) : s.fetch = .ok i := by
  obtain ⟨ho, hb⟩ := decode_ok hdec
  have hread : iw :: words.take i.op.arity = s.readWords s.pc (i.op.arity + 1) :=
    (readWords_eq_take fun j hj => hmem j (Nat.lt_succ_iff.mp hj)).symm
  simp only [State.readWords] at hread
  split at hread
  · next w hw =>
    obtain ⟨rfl, hwords⟩ := List.cons.inj hread
    exact fetch_of_words hw ho (by rw [← hwords, paramsOf_take, hb])
  · cases hread

/-- Settles O35: the fetch gives the decoded instruction, and both ways of stepping execute what is fetched. -/
theorem stepRunsTheDecodedInstruction : Obligations.StepRunsTheDecodedInstruction := by
  intro s iw i words rest hf hs hmem hdec
  have hstep : cmdStep s = exec i s := by
    simp only [cmdStep, hf, hs, execOne, fetch_of_decode hmem hdec]
  refine ⟨fun hh hn => ?_, fun later hh => ?_⟩
  · simp only [step, hostTurn, hh, drive, hf, turn, hs, hn, hstep]
  · simp only [step, hostTurn, hh, hstep]

end Sys2Proof.Machine
end

section
/-! PROOFS. Arithmetic: instructions of two sources and a destination on every path (R89), and the range check of
ADD and MUL (R102). -/

namespace Sys2Proof.Machine

/-! ## Two sources and a destination -/

/-- Go on with two values read and an address to write, or raise the fault of the first resolution that fails:
what ADD, MUL, LT and EQ have in common (R89, R91). -/
def withOperands (s : State) (a b dst : Param) (k : Int → Int → Int → Result) : Result :=
  withRead s a fun x => withRead s b fun y => withWrite s dst fun d => k x y d

theorem exec_add (a b dst : Param) (s : State) :
    exec (.add a b dst) s =
      withOperands s a b dst fun x y d => withResult s (x + y) fun r => storeAndAdvance s d r 4 := rfl

theorem exec_mul (a b dst : Param) (s : State) :
    exec (.mul a b dst) s =
      withOperands s a b dst fun x y d => withResult s (x * y) fun r => storeAndAdvance s d r 4 := rfl

section withOperands
variable {s : State} {a b dst : Param}

theorem withOperands_ok {x y d : Int} (hx : s.resolveRead a = .ok x) (hy : s.resolveRead b = .ok y)
    (hd : s.resolveWrite dst = .ok d) (k : Int → Int → Int → Result) :
    withOperands s a b dst k = k x y d := by
  rw [withOperands, withRead_ok hx, withRead_ok hy, withWrite_ok hd]

/-- The first resolution that fails gives the fault, whatever would follow. -/
theorem withOperands_error (k : Int → Int → Int → Result) :
    (∀ c, s.resolveRead a = .error c → withOperands s a b dst k = .next (s.enterFault c)) ∧
    (∀ x c, s.resolveRead a = .ok x → s.resolveRead b = .error c →
      withOperands s a b dst k = .next (s.enterFault c)) ∧
    (∀ x y c, s.resolveRead a = .ok x → s.resolveRead b = .ok y → s.resolveWrite dst = .error c →
      withOperands s a b dst k = .next (s.enterFault c)) := by
  unfold withOperands
  refine ⟨fun c ha => ?_, fun x c hx hb => ?_, fun x y c hx hy hd => ?_⟩
  · rw [withRead_error ha, raise]
  · rw [withRead_ok hx, withRead_error hb, raise]
  · rw [withRead_ok hx, withRead_ok hy, withWrite_error hd, raise]

end withOperands

/-! ## The range check -/

/-- The words of a state's variant: every integer, or those of 32 bits (R10, R102). -/
theorem State.isWord_iff {s : State} {v : Int} :
    s.isWord v = true ↔ s.variant = .advanced ∨ (-2147483648 ≤ v ∧ v ≤ 2147483647) := by
  cases hv : s.variant with
  | advanced => simp [State.isWord_advanced hv]
  | simple => simp [State.isWord_simple hv, Word.fits_iff]

/-- A result the variant can hold is stored at the resolved address, any other is the overflow fault (R102). -/
theorem withResult_storeAndAdvance {s : State} {dst : Param} {d : Int} (hd : s.resolveWrite dst = .ok d)
    (v : Int) :
    ((s.variant = .advanced ∨ (-2147483648 ≤ v ∧ v ≤ 2147483647)) →
      withResult s v (fun r => storeAndAdvance s d r 4) =
        .next { s with mem := s.mem.set d v, pc := s.pc + 4, response := .ok }) ∧
    (s.variant = .simple → (v < -2147483648 ∨ v > 2147483647) →
      withResult s v (fun r => storeAndAdvance s d r 4) = .next (s.enterFault .arithmeticOverflow)) := by
  refine ⟨fun h => ?fits, fun hv h => ?overflows⟩
  case fits =>
    rw [withResult_ok (State.isWord_iff.mpr h),
      storeAndAdvance_of_hasAddress (State.hasAddress_of_resolveWrite hd)]
    rfl
  case overflows =>
    have hw : s.isWord v = false := by
      rw [← Bool.not_eq_true, State.isWord_iff, hv]
      simp only [reduceCtorEq, false_or]
      omega
    rw [withResult_error hw, raise]

/-! ## ADD and MUL -/

/-- Settles O14: the operands resolve in order, and the sum passes the range check. -/
theorem addFollowsItsRule : Obligations.AddFollowsItsRule := by
  intro s a b dst
  rw [exec_add]
  refine ⟨fun x y d hx hy hd => ?_, withOperands_error _⟩
  rw [withOperands_ok hx hy hd]
  exact withResult_storeAndAdvance hd (x + y)

/-- Settles O15: the operands resolve in order, and the product passes the range check. -/
theorem mulFollowsItsRule : Obligations.MulFollowsItsRule := by
  intro s a b dst
  rw [exec_mul]
  refine ⟨fun x y d hx hy hd => ?_, withOperands_error _⟩
  rw [withOperands_ok hx hy hd]
  exact withResult_storeAndAdvance hd (x * y)

end Sys2Proof.Machine
end

section
/-! PROOFS. Input and output: IN and OUT on every path in both variants (R110 to R113), and the frame of IN. -/

namespace Sys2Proof.Machine

variable {s : State}

/-! ## IN -/

theorem exec_inp_simple (hv : s.variant = .simple) (dst : Param) :
    exec (.inp dst) s = withWrite s dst (inputInline s) := by
  simp only [exec, execInp, hv]

theorem exec_inp_advanced (hv : s.variant = .advanced) (dst : Param) :
    exec (.inp dst) s = withWrite s dst (inputSuspend s) := by
  simp only [exec, execInp, hv]

/-- `get_input` blocks: only the attempt is recorded (R111). -/
theorem inputInline_of_supply_none (h : s.supply = none) (d : Int) :
    inputInline s d = wait s.polled := by
  unfold inputInline
  rw [h]

section supplied
variable {d v : Int} {vs : List Int}

theorem inputInline_of_isWord (h : s.supply = some (v, vs)) (hw : s.isWord v = true)
    (ha : s.hasAddress d = true) :
    inputInline s d = .next ((s.polled.setInputs vs).stored d v 2) := by
  have ha' : (s.polled.setInputs vs).hasAddress d = true := ha
  unfold inputInline
  simp only [h, hw, if_true, storeAndAdvance_of_hasAddress ha']
  rfl

theorem inputInline_of_not_isWord (h : s.supply = some (v, vs)) (hw : s.isWord v = false) :
    inputInline s d = .refused .inputNotWord := by
  unfold inputInline
  simp only [h, hw, Bool.false_eq_true, if_false]

end supplied

/-- `input(value)` ends a wait whose latched address exists (R110, part two). -/
theorem cmdInput_ok (hf : s.fault = none) (hs : s.status = .waitingForInput)
    (ha : s.hasAddress s.pendDst = true) (v : Int) :
    cmdInput v s =
      .next ((((s.setMem (s.mem.set s.pendDst v)).advance 2).setStatus .running).setResponse .ok) := by
  unfold cmdInput
  simp only [hf, hs, State.memWrite_ok.mpr ⟨ha, rfl⟩]
  rfl

/-- Settles O20: a resolved destination is latched, and in the advanced variant every address can be written. -/
theorem inSuspendsAndResumes : Obligations.InSuspendsAndResumes := by
  intro s hv
  refine ⟨fun dst d hd => ?latches, fun dst c hc => ?faults, fun v hf hs => ?resumes⟩
  case latches => rw [exec_inp_advanced hv, withWrite_ok hd]; rfl
  case faults => rw [exec_inp_advanced hv, withWrite_error hc, raise]
  case resumes => exact cmdInput_ok hf hs (State.hasAddress_advanced hv _) v

/-- Settles O21: a resolved destination leaves it to `get_input` what happens, and a faulting one leaves it
unasked. -/
theorem inReadsInline : Obligations.InReadsInline := by
  intro s hv dst
  rw [exec_inp_simple hv]
  refine ⟨fun d hd => ?_, fun c hc => by rw [withWrite_error hc, raise]⟩
  rw [withWrite_ok hd]
  refine ⟨fun v vs hst hin => ?returns, fun hn => ?blocks⟩
  case returns =>
    have hsup : s.supply = some (v, vs) := State.supply_some.mpr ⟨hst, hin⟩
    rw [← State.isWord_simple hv]
    exact ⟨fun hw => inputInline_of_isWord hsup hw (State.hasAddress_of_resolveWrite hd),
      inputInline_of_not_isWord hsup⟩
  case blocks => exact inputInline_of_supply_none (State.supply_none.mpr hn) d

/-- Settles O28: a fault leaves everything but `FAULT` and the response, and the effect of IN is a latch, a blocked
attempt or a store at the destination. -/
theorem frameOfIn : Obligations.FrameOfIn := by
  intro s t dst h
  obtain ⟨c, rfl⟩ | ⟨d, hd, ⟨hv, rfl⟩ | ⟨hv, -, rfl⟩ | ⟨v, vs, hv, -, -, rfl⟩⟩ := exec_next h
  · have hm := sameMemory_enterFault s c
    simpa [hm] using fun _ x _ => hm x
  · exact ⟨rfl, rfl, rfl, rfl, rfl, rfl, rfl, rfl, .inl rfl,
      fun _ => ⟨sameMemory_of_eq rfl rfl rfl, rfl, rfl, rfl⟩, by simp [hv]⟩
  · exact ⟨rfl, rfl, rfl, rfl, rfl, rfl, rfl, rfl, .inl rfl, by simp [hv], fun _ => ⟨rfl, rfl, fun _ _ => rfl⟩⟩
  · exact ⟨rfl, rfl, rfl, rfl, rfl, rfl, rfl, rfl, .inl rfl, by simp [hv], fun _ => ⟨rfl, rfl, fun x hx =>
      State.memRead_stored_ne (s.polled.setInputs vs) v 2 (hx d hd)⟩⟩

/-! ## OUT -/

theorem exec_out_simple (hv : s.variant = .simple) (a : Param) :
    exec (.out a) s = withRead s a (outputInline s) := by
  simp only [exec, execOut, hv]

theorem exec_out_advanced (hv : s.variant = .advanced) (a : Param) :
    exec (.out a) s = withRead s a (outputSuspend s) := by
  simp only [exec, execOut, hv]

theorem outputInline_of_blocked (h : s.reply = .blocked) (v : Int) :
    outputInline s v = wait s.offered := by
  unfold outputInline
  rw [h]

theorem outputInline_of_ready (h : s.reply = .ready) (v : Int) :
    outputInline s v = done ((s.offered.setOutputs (s.outputs ++ [v])).advance 2) := by
  unfold outputInline State.send
  rw [h]

theorem outputInline_of_gone (h : s.reply = .gone) (v : Int) :
    outputInline s v = done (s.offered.advance 2) := by
  unfold outputInline State.send
  rw [h]

/-- Settles O22: a resolved value becomes pending, and `output()` returns the pending value. -/
theorem outSuspendsAndDelivers : Obligations.OutSuspendsAndDelivers := by
  intro s hv
  refine ⟨fun a v ha => ?suspends, fun a c hc => ?faults, fun v hf hs => ?delivers⟩
  case suspends => rw [exec_out_advanced hv, withRead_ok ha]; rfl
  case faults => rw [exec_out_advanced hv, withRead_error hc, raise]
  case delivers => exact cmdOutput_ok hf hs

/-- Settles O23: a resolved value leaves it to the reply of `io.output` what happens. -/
theorem outWritesInline : Obligations.OutWritesInline := by
  intro s hv a
  rw [exec_out_simple hv]
  refine ⟨fun v ha => ?_, fun c hc => by rw [withRead_error hc, raise]⟩
  rw [withRead_ok ha]
  exact ⟨(outputInline_of_ready · v), (outputInline_of_gone · v), (outputInline_of_blocked · v)⟩

end Sys2Proof.Machine
end

section
/-! PROOFS. Transfers: a move consumes or delivers the value of the IN or OUT it performs, and no other (R114). -/

namespace Sys2Proof.Machine

variable {d : Prop} {s t : State} {i : Instr}

/-! ## Values consumed -/

/-- The IN at `PC` has received the first value supplied, at its destination, and has been stepped over. -/
def Consumed (s t : State) : Prop :=
  ∃ v dst x, s.inputs = v :: t.inputs ∧ s.fetch = .ok (.inp dst) ∧ s.resolveWrite dst = .ok x ∧
    t.mem = s.mem.set x v ∧ t.pc = s.pc + 2 ∧ t.status = .running

/-- What IN can do: nothing to `PC` and the supplied values, or receive the first of them. -/
theorem Effect.inp_cases {dst : Param} (h : Effect (.inp dst) s t) :
    (t.pc = s.pc ∧ t.inputs = s.inputs) ∨
      ∃ v x, s.inputs = v :: t.inputs ∧ s.resolveWrite dst = .ok x ∧ t.mem = s.mem.set x v ∧
        t.pc = s.pc + 2 ∧ t.status = s.status := by
  obtain ⟨x, hx, ⟨-, rfl⟩ | ⟨-, -, rfl⟩ | ⟨v, vs, -, hv, -, rfl⟩⟩ := h
  · exact .inl ⟨rfl, rfl⟩
  · exact .inl ⟨rfl, rfl⟩
  · exact .inr ⟨v, x, (State.supply_some.mp hv).2, hx, rfl, rfl, rfl⟩

theorem Change.inputs_eq (h : Change i s t) (hn : ∀ dst, i ≠ .inp dst) : t.inputs = s.inputs := by
  cases h with
  | stores => rfl
  | inputs dst x v vs hi => exact absurd hi (hn dst)
  | _ => simp

theorem Move.consumes (h : Move d s t) (hs : s.Inv) : t.inputs = s.inputs ∨ Consumed s t := by
  cases h with
  | executes i t hf hr hi he =>
    by_cases hn : ∀ dst, i ≠ .inp dst
    · exact .inl (he.change.inputs_eq hn)
    · obtain ⟨dst, rfl⟩ := not_forall_not.mp hn
      obtain ⟨-, h⟩ | ⟨v, x, hv, hx, hm, hpc, hst⟩ := he.inp_cases
      · exact .inl h
      · exact .inr ⟨v, dst, x, hv, hi, hx, hm, hpc, hst.trans hr⟩
  | receives v vs hd hf hw hv ha =>
    obtain ⟨dst, hi, hx⟩ := hs.pending hw
    exact .inr ⟨v, dst, s.pendDst, (State.supply_some.mp hv).2, hi, hx, rfl, rfl, rfl⟩
  | receiveFaults v vs c hw hv ha =>
    obtain ⟨dst, -, hx⟩ := hs.pending hw
    simp [State.hasAddress_of_resolveWrite hx] at ha
  | _ => simp

/-- A wait for input ends with the host's value, and then none is consumed, or with the first one supplied. -/
theorem Move.receives_of_waiting (h : Move s.LeftToRun s t) (hs : s.status = .waitingForInput)
    (ht : t.status = .running) : ∃ v, t.mem = s.mem.set s.pendDst v ∧
      (((∃ later, s.host = .input v :: later) ∧ t.inputs = s.inputs) ∨
        (s.LeftToRun ∧ s.inputs = v :: t.inputs)) := by
  cases h with
  | given v hh => exact ⟨v, rfl, .inl ⟨hh, rfl⟩⟩
  | receives v vs hd hf hw hv => exact ⟨v, rfl, .inr ⟨hd, (State.supply_some.mp hv).2⟩⟩
  | faults | receiveFaults | stalls | answers => simp [hs] at ht
  | executes _ _ _ hr | delivers _ _ _ hr | sends _ _ _ hr | holds _ _ _ hr | handsOver _ _ _ hr
  | blocks _ _ hr => simp [hs] at hr
  | writes a v hh hu => simp [(running_of_untouched hu).2] at hs

/-! ## Values delivered -/

/-- The value has come from the OUT at `PC` (simple), from `OUT_VAL`, or from under way. -/
def Emitted (s : State) (v : Int) : Prop :=
  (s.variant = .simple ∧ ∃ a, s.fetch = .ok (.out a) ∧ s.resolveRead a = .ok v) ∨
    s.status = .waitingToOutput v ∨ s.sending = some v

/-- What OUT can do: nothing to the delivered values, or hand its operand to `io.output`. -/
theorem Effect.out_cases {a : Param} (h : Effect (.out a) s t) :
    (t.outputs = s.outputs ∧ (s.variant = .simple → t.pc = s.pc)) ∨
      s.variant = .simple ∧ ∃ v, s.resolveRead a = .ok v ∧ t.outputs = (s.send v).outputs := by
  obtain ⟨v, ha, ⟨hv, rfl⟩ | ⟨hv, -, rfl⟩ | ⟨hv, -, rfl⟩⟩ := h
  · exact .inl ⟨rfl, by simp [hv]⟩
  · exact .inl ⟨rfl, fun _ => rfl⟩
  · exact .inr ⟨hv, v, ha, rfl⟩

theorem Change.outputs_eq (h : Change i s t) (hn : ∀ a, i ≠ .out a) : t.outputs = s.outputs := by
  cases h with
  | stores | inputs => rfl
  | outputs a v hi => exact absurd hi (hn a)
  | _ => simp

/-- A value handed to `io.output` is delivered, or discarded. -/
theorem send_outputs_cases (s : State) (v : Int) :
    (s.send v).outputs = s.outputs ∨ (s.send v).outputs = s.outputs ++ [v] := by
  rw [State.send_outputs]
  exact ite_eq_or_eq ..

theorem Move.emits (h : Move d s t) :
    t.outputs = s.outputs ∨ ∃ v, t.outputs = s.outputs ++ [v] ∧ Emitted s v := by
  cases h with
  | executes i t hf hr hi he =>
    by_cases hn : ∀ a, i ≠ .out a
    · exact .inl (he.change.outputs_eq hn)
    · obtain ⟨a, rfl⟩ := not_forall_not.mp hn
      obtain ⟨h, -⟩ | ⟨hv, v, ha, h⟩ := he.out_cases
      · exact .inl h
      · rw [h]
        exact (send_outputs_cases s v).imp_right fun ho => ⟨v, ho, .inl ⟨hv, a, hi, ha⟩⟩
  | sends v hd hf hw =>
    exact (send_outputs_cases _ v).imp_right fun ho => ⟨v, ho, .inr (.inl hw)⟩
  | handsOver v hd hf hr hv =>
    exact (send_outputs_cases s v).imp_right fun ho => ⟨v, ho, .inr (.inr hv)⟩
  | _ => simp

/-- A pending value goes to the host, or through `io.output`, which takes, discards or holds it. -/
theorem Move.delivers_of_waiting {v : Int} (h : Move s.LeftToRun s t)
    (hs : s.status = .waitingToOutput v) (ht : t.status = .running) :
    ((∃ later, s.host = .output :: later) ∧ t.response = .value v ∧ t.outputs = s.outputs) ∨
      (s.LeftToRun ∧
        ((s.reply = .ready ∧ t.outputs = s.outputs ++ [v]) ∨
          (s.reply = .gone ∧ t.outputs = s.outputs) ∨
          (s.reply = .blocked ∧ t.outputs = s.outputs ∧ t.sending = some v))) := by
  cases h with
  | delivers w hh hf hw =>
    obtain rfl : v = w := by simpa [hs] using hw
    exact .inl ⟨hh, rfl, rfl⟩
  | sends w hd hf hw hc =>
    obtain rfl : v = w := by simpa [hs] using hw
    refine .inr ⟨hd, ?_⟩
    cases hr : s.reply with
    | ready => simp [State.send_outputs, hr]
    | gone => simp [State.send_outputs, hr]
    | blocked => exact absurd hr hc
  | holds w hd hf hw hc =>
    obtain rfl : v = w := by simpa [hs] using hw
    exact .inr ⟨hd, .inr (.inr ⟨hc, rfl, rfl⟩)⟩
  | faults | answers => simp [hs] at ht
  | executes _ _ _ hr | given _ _ _ hr | receives _ _ _ _ hr | receiveFaults _ _ _ hr
  | handsOver _ _ _ hr | stalls _ hr | blocks _ _ hr => simp [hs] at hr
  | writes a w hh hu => simp [(running_of_untouched hu).2] at hs

/-- A value ceases to be under way when `io.output` returns with it. -/
theorem Move.hands_over {v : Int} (h : Move d s t) (hv : s.sending = some v) (ht : t.sending = none) :
    t.outputs = if s.reply = .gone then s.outputs else s.outputs ++ [v] := by
  cases h with
  | handsOver w hd hf hr hw =>
    obtain rfl : v = w := by simpa [hv] using hw
    exact s.send_outputs v
  | executes i t hf hr hi he => simp [he.change.sending, hv] at ht
  | _ => simp [hv] at ht

/-! ## Instructions that complete -/

/-- In a simple core only the instruction at `PC` moves `PC`. -/
theorem Move.effect_of_pc_ne (h : Move d s t) (ok : s.SimpleOk) (hi : s.fetch = .ok i)
    (hpc : t.pc ≠ s.pc) : Effect i s t := by
  have hst := ok.twoStates
  cases h with
  | executes j t hf hr hj he =>
    obtain rfl : i = j := by simpa [hi] using hj
    exact he
  | given _ _ _ hw | receives _ _ _ _ hw => simp [hw] at hst
  | _ => simp at hpc

/-- Settles O47: the transfers are those of a move, and a simple core moves `PC` by its instruction alone. -/
theorem transfersAreExact : Obligations.TransfersAreExact := by
  intro s t hs h
  obtain ⟨u, l, hm, rfl⟩ := step_move h
  refine ⟨hm.consumes hs, hm.emits, fun dst hv hi hpc => ?inp, hm.receives_of_waiting,
    fun a hv hi hpc => ?out, fun v => hm.delivers_of_waiting, fun v => hm.hands_over⟩
  case inp =>
    obtain ⟨h, -⟩ | ⟨v, x, hin, hx, hmem, -⟩ := (hm.effect_of_pc_ne (hs.simple hv) hi hpc).inp_cases
    · exact absurd h hpc
    · exact ⟨v, x, hin, hx, hmem⟩
  case out =>
    obtain ⟨-, h⟩ | ⟨-, v, ha, hout⟩ := (hm.effect_of_pc_ne (hs.simple hv) hi hpc).out_cases
    · exact absurd (h hv) hpc
    · exact ⟨v, ha, hout.trans (s.send_outputs v)⟩

end Sys2Proof.Machine
end

section
/-! PROOFS. Jumps: JT and JF on every path, both parameters resolved whether or not the jump is taken (R89, R120 to
R122). -/

namespace Sys2Proof.Machine

/-! ## Two sources -/

/-- Go on with two values read, or raise the fault of the first resolution that fails (R89). -/
def withSources (s : State) (a b : Param) (k : Int → Int → Result) : Result :=
  withRead s a fun x => withRead s b fun y => k x y

theorem exec_jt (a b : Param) (s : State) :
    exec (.jt a b) s =
      withSources s a b fun x y => done (if x ≠ 0 then s.setPc y else s.advance 3) := rfl

theorem exec_jf (a b : Param) (s : State) :
    exec (.jf a b) s =
      withSources s a b fun x y => done (if x = 0 then s.setPc y else s.advance 3) := rfl

section withSources
variable {s : State} {a b : Param}

theorem withSources_ok {x y : Int} (hx : s.resolveRead a = .ok x) (hy : s.resolveRead b = .ok y)
    (k : Int → Int → Result) : withSources s a b k = k x y := by
  rw [withSources, withRead_ok hx, withRead_ok hy]

/-- The first resolution that fails gives the fault, whatever would follow. -/
theorem withSources_error (k : Int → Int → Result) :
    (∀ c, s.resolveRead a = .error c → withSources s a b k = .next (s.enterFault c)) ∧
    (∀ x c, s.resolveRead a = .ok x → s.resolveRead b = .error c →
      withSources s a b k = .next (s.enterFault c)) := by
  unfold withSources
  refine ⟨fun c ha => ?_, fun x c hx hb => ?_⟩
  · rw [withRead_error ha, raise]
  · rw [withRead_ok hx, withRead_error hb, raise]

end withSources

/-! ## Taken or not -/

section branch
variable {taken : Prop} [Decidable taken] (s : State) (y : Int)

/-- A jump that is taken sets `PC` to its target, whichever word that is (R122). -/
theorem done_jump_of_taken (h : taken) :
    done (if taken then s.setPc y else s.advance 3) = .next { s with pc := y, response := .ok } := by
  rw [if_pos h]
  rfl

theorem done_jump_of_not_taken (h : ¬ taken) :
    done (if taken then s.setPc y else s.advance 3) =
      .next { s with pc := s.pc + 3, response := .ok } := by
  rw [if_neg h]
  rfl

end branch

/-! ## JT and JF -/

/-- Settles O18: both parameters resolve in order, and JT is taken when the first is not zero. -/
theorem jtFollowsItsRule : Obligations.JtFollowsItsRule := by
  intro s a b
  rw [exec_jt]
  refine ⟨fun x y hx hy => ?_, withSources_error _⟩
  rw [withSources_ok hx hy]
  exact ⟨done_jump_of_taken s y, fun hz => done_jump_of_not_taken s y (not_not_intro hz)⟩

/-- Settles O19: both parameters resolve in order, and JF is taken when the first is zero. -/
theorem jfFollowsItsRule : Obligations.JfFollowsItsRule := by
  intro s a b
  rw [exec_jf]
  refine ⟨fun x y hx hy => ?_, withSources_error _⟩
  rw [withSources_ok hx hy]
  exact ⟨done_jump_of_taken s y, done_jump_of_not_taken s y⟩

end Sys2Proof.Machine
end

section
/-! PROOFS. Comparisons: LT and EQ on every path, in both variants (R89, R130, R131). -/

namespace Sys2Proof.Machine

theorem exec_lt (a b dst : Param) (s : State) :
    exec (.lt a b dst) s =
      withOperands s a b dst fun x y d => storeAndAdvance s d (boolWord (decide (x < y))) 4 := rfl

theorem exec_eq (a b dst : Param) (s : State) :
    exec (.eq a b dst) s =
      withOperands s a b dst fun x y d => storeAndAdvance s d (boolWord (decide (x = y))) 4 := rfl

/-- The outcome of a comparison is stored at the resolved address with no range check: 0 and 1 are words of both
variants. -/
theorem storeAndAdvance_boolWord {s : State} {dst : Param} {d : Int} (hd : s.resolveWrite dst = .ok d)
    (p : Prop) [Decidable p] :
    storeAndAdvance s d (boolWord (decide p)) 4 =
      .next { s with mem := s.mem.set d (if p then 1 else 0), pc := s.pc + 4, response := .ok } := by
  rw [boolWord_decide, storeAndAdvance_of_hasAddress (State.hasAddress_of_resolveWrite hd)]
  rfl

/-- Settles O16: the operands resolve in order, and the outcome of `x < y` is stored. -/
theorem ltFollowsItsRule : Obligations.LtFollowsItsRule := by
  intro s a b dst
  rw [exec_lt]
  refine ⟨fun x y d hx hy hd => ?_, withOperands_error _⟩
  rw [withOperands_ok hx hy hd]
  exact storeAndAdvance_boolWord hd (x < y)

/-- Settles O17: the operands resolve in order, and the outcome of `x = y` is stored. -/
theorem eqFollowsItsRule : Obligations.EqFollowsItsRule := by
  intro s a b dst
  rw [exec_eq]
  refine ⟨fun x y d hx hy hd => ?_, withOperands_error _⟩
  rw [withOperands_ok hx hy hd]
  exact storeAndAdvance_boolWord hd (x = y)

end Sys2Proof.Machine
end

section
/-! PROOFS. Relative base: ARB on every path, in both variants (R140, R141). -/

namespace Sys2Proof.Machine

variable {s : State}

theorem exec_arb_simple (hv : s.variant = .simple) (a : Param) :
    exec (.arb a) s = raise .invalidOpCode s := by
  simp only [exec, execArb, hv]

theorem exec_arb_advanced (hv : s.variant = .advanced) (a : Param) :
    exec (.arb a) s = withRead s a fun x => done ((s.setRb (s.rb + x)).advance 2) := by
  simp only [exec, execArb, hv]

/-- The simple variant has no ARB: its opcode selects no operation (R82, R141). -/
theorem opOf_arb_code_simple : opOf .simple Op.arb.code = none := rfl

/-- Settles O24: in the advanced variant the operand resolves before `RB` changes, and in the simple variant
neither the term nor the word is an instruction. -/
theorem arbFollowsItsRule : Obligations.ArbFollowsItsRule := by
  intro s a
  refine ⟨fun hv x hx => ?adds, fun hv c hc => ?faults, fun hv => ?term, fun hv iw hiw h9 => ?word⟩
  case adds => rw [exec_arb_advanced hv, withRead_ok hx]; rfl
  case faults => rw [exec_arb_advanced hv, withRead_error hc, raise]
  case term => rw [exec_arb_simple hv, raise]
  case word =>
    have hop : (decodeFields iw).opcode = Op.arb.code := h9
    exact execOne_of_opOf_none hiw (by rw [hv, hop, opOf_arb_code_simple])

end Sys2Proof.Machine
end

section
/-! PROOFS. Halting: HALT on every word that selects it (R71, R145), and what a halted core still does (R146). -/

namespace Sys2Proof.Machine

open State

variable {d : Prop} {s t : State}

theorem execOne_of_fetch {i : Instr} (h : s.fetch = .ok i) : execOne s = exec i s := by
  simp only [execOne, h]

/-- HALT has no parameters, so that neither its digits nor the words behind it matter (R71, R82). -/
theorem build_halt (f : Fields) (words : List Int) : Op.halt.build (paramsOf .halt f words) = some .halt := rfl

theorem fetch_of_halt_word {iw : Int} (hiw : s.memRead s.pc = .ok iw)
    (h : (decodeFields iw).opcode = Op.halt.code) : s.fetch = .ok .halt :=
  fetch_of_words hiw (h ▸ opOf_code rfl) (build_halt _ _)

/-- Settles O25: the instruction is fetched from its opcode field alone, and its effect is on `STATE` alone. -/
theorem haltFollowsItsRule : Obligations.HaltFollowsItsRule := by
  have hexec (s : State) : exec .halt s = .next { s with status := .halted, response := .ok } := rfl
  refine ⟨hexec, fun s iw hiw h99 => ?_⟩
  rw [execOne_of_fetch (fetch_of_halt_word hiw h99), hexec]

/-- A move of a halted core is a violation or an answer: the others happen to a core that runs or waits. -/
theorem Move.untouched_of_halted (h : Move d s t) (hs : s.status = .halted) : Untouched s t := by
  cases h with
  | faults c => exact untouched_enterFault s c
  | answers => constructor <;> rfl
  | writes a v hh hu => simp [(running_of_untouched hu).2] at hs
  | executes _ _ _ h' | given _ _ _ h' | receives _ _ _ _ h' | receiveFaults _ _ _ h' | delivers _ _ _ h'
  | sends _ _ _ h' | holds _ _ _ h' | handsOver _ _ _ h' | stalls _ h' | blocks _ _ h' => simp [h'] at hs

/-- Settles O40: the frame from the one inversion of a step, and the three violations because `Halted` is none
of the states that the commands require. -/
theorem haltedIsTerminal : Obligations.HaltedIsTerminal := by
  intro s hs
  refine ⟨fun t h => ?frame, cmdStep_of_not_running (by simp [hs]),
    fun v => cmdInput_of_not_waiting v (by simp [hs]), cmdOutput_of_not_waiting (by simp [hs])⟩
  obtain ⟨u, l, hm, rfl⟩ := step_move h
  exact { hm.untouched_of_halted hs with }

end Sys2Proof.Machine
end

section
/-! PROOFS. Commands: what `step`, `input`, `output`, `run` and `execute` answer in each state (R151 to R154, R157,
R160). -/

namespace Sys2Proof.Machine

open State

variable {s t : State}

/-! ## Commands in a state that does not allow them -/

theorem cmdStep_of_faulted (h : s.fault ≠ none) :
    cmdStep s = .next (s.enterFault .statePreconditionViolation) := by
  unfold cmdStep
  split
  · next hf _ => exact absurd hf h
  · rfl

theorem cmdInput_of_faulted (h : s.fault ≠ none) (v : Int) :
    cmdInput v s = .next (s.enterFault .statePreconditionViolation) := by
  unfold cmdInput
  split
  · next hf _ => exact absurd hf h
  · rfl

theorem cmdOutput_of_faulted (h : s.fault ≠ none) :
    cmdOutput s = .next (s.enterFault .statePreconditionViolation) := by
  unfold cmdOutput
  split
  · next hf _ => exact absurd hf h
  · rfl

theorem cmdRun_of_faulted {c : FaultCode} (h : s.fault = some c) :
    cmdRun s = .next (s.setResponse (.error c)) := by
  simp only [cmdRun, h]

/-- The fault entry of a core that has faulted already keeps the older fault (R174). -/
theorem State.enterFault_of_faulted {old : FaultCode} (h : s.fault = some old) (c : FaultCode) :
    s.enterFault c = s.setResponse (.error c) := by
  simp only [enterFault, h]

theorem State.enterFault_of_not_faulted (h : s.fault = none) (c : FaultCode) :
    s.enterFault c = (s.setFault (some c)).setResponse (.error c) := by
  simp only [enterFault, h]

/-! ## step(), input and output -/

theorem cmdStep_ok (hf : s.fault = none) (hs : s.status = .running) : cmdStep s = execOne s := by
  simp only [cmdStep, hf, hs]

/-- Settles O36: a state that is faulted or not running is none that `step()` requires. -/
theorem stepCommand : Obligations.StepCommand :=
  fun _ => ⟨cmdStep_ok, fun h => h.elim cmdStep_of_faulted cmdStep_of_not_running⟩

/-- Settles O37: after the value is written the core runs, so that a second `input` is a violation. -/
theorem inputCommand : Obligations.InputCommand := by
  intro s v hv
  refine ⟨fun hf hs => ?legal, fun h => h.elim (cmdInput_of_faulted · v) (cmdInput_of_not_waiting v)⟩
  case legal =>
    have ha : s.hasAddress s.pendDst = true := hasAddress_advanced hv _
    refine ⟨_, cmdInput_ok hf hs ha v, rfl, ?_, fun w => cmdInput_of_not_waiting w (by simp)⟩
    exact memRead_setMem_set_same ha v

/-- Settles O38: after the value is returned the core runs, so that a second `output` is a violation. -/
theorem outputCommand : Obligations.OutputCommand := by
  intro s
  refine ⟨fun v hf hs => ?legal, fun h => h.elim cmdOutput_of_faulted cmdOutput_of_not_waiting⟩
  case legal => exact ⟨_, cmdOutput_ok hf hs, rfl, cmdOutput_of_not_waiting (by simp)⟩

/-! ## execute by hand -/

theorem popWhenEnded_of_ended (rest : List HostAction) (h : s.ended = true) :
    popWhenEnded rest s = s.setHost rest := if_pos h

theorem popWhenEnded_of_not_ended (rest : List HostAction) (h : s.ended = false) :
    popWhenEnded rest s = s := if_neg (by simp [h])

/-- Whether a core has ended does not depend on the host's list. -/
theorem ended_popWhenEnded (rest : List HostAction) (s : State) :
    (popWhenEnded rest s).ended = s.ended := by
  obtain ⟨l, hl⟩ := popWhenEnded_eq rest s
  rw [hl]
  rfl

/-- `execute` by hand makes single transitions, and is taken off the host's list when the core has ended. -/
theorem step_execute {rest : List HostAction} (hv : s.variant = .simple)
    (hh : s.host = .execute :: rest) : step s = mapNext (popWhenEnded rest) (cmdStep s) := by
  simp only [step, hostTurn, hh, hv]

theorem Change.host {i : Instr} (h : Change i s t) : t.host = s.host := by
  cases h with
  | stores | inputs => rfl
  | _ => simp

/-- No move touches the host's list. -/
theorem Move.host {d : Prop} (h : Move d s t) : t.host = s.host := by
  cases h with
  | executes i t hf hs hi he => exact he.change.host
  | _ => simp

/-- Settles O32: each command is a violation, which a faulted core only answers; the drivers do not look
further than at `FAULT`. -/
theorem faultedRefusesEveryCommand : Obligations.FaultedRefusesEveryCommand := by
  intro s c hc
  have hf : s.fault ≠ none := by simp [hc]
  have refused : (.next (s.enterFault .statePreconditionViolation) : Result) =
      .next { s with response := .error .statePreconditionViolation } :=
    congrArg _ (enterFault_of_faulted hc _)
  have hstep := (cmdStep_of_faulted hf).trans refused
  refine ⟨hstep, fun v => (cmdInput_of_faulted hf v).trans refused,
    (cmdOutput_of_faulted hf).trans refused, cmdRun_of_faulted hc,
    fun rest hv hh => ?execute, fun hh => ?driven⟩
  case execute =>
    rw [step_execute hv hh, hstep, mapNext, popWhenEnded_of_ended _ (by simp [ended, hc])]
    rfl
  case driven => simp only [step, hostTurn, hh, drive, hc]

/-- Settles O46: a transition of `execute` is one of `step()`, which the host's list only outlasts where the core
has not ended. -/
theorem executeRunsToHalt : Obligations.ExecuteRunsToHalt := by
  intro s rest hv hh
  rw [step_execute hv hh]
  refine ⟨fun hf hs t h => ?running, fun hf hs => ?halted⟩
  case running =>
    obtain ⟨u, hu, rfl⟩ := mapNext_next.mp h
    have hhost : u.host = s.host := (cmdStep_move (d := True) hu).host
    rw [ended_popWhenEnded]
    refine ⟨fun he => ?_, fun he => ?_, u, cmdStep_ok hf hs ▸ hu, ?_⟩
    · rw [popWhenEnded_of_ended rest he, setHost_host]
    · rw [popWhenEnded_of_not_ended rest he, hhost]
    · obtain ⟨l, hl⟩ := popWhenEnded_eq rest u
      rw [hl]
      rfl
  case halted =>
    rw [cmdStep_of_not_running (by simp [hs]), mapNext, popWhenEnded_of_ended _ (by simp [ended]),
      enterFault_of_not_faulted hf]
    rfl

/-! ## The loop of run -/

/-- An attempt that returns takes one reply off the list and adds the value, unless the consumer is gone (R187). -/
theorem State.send_eq (s : State) (v : Int) : s.send v =
    s.offered.setOutputs (if s.reply = .gone then s.outputs else s.outputs ++ [v]) := by
  cases hr : s.reply <;> simp only [send, hr] <;> rfl

theorem State.send_of_ready (h : s.reply = .ready) (v : Int) :
    s.send v = s.offered.setOutputs (s.outputs ++ [v]) := by
  simp only [send, h]

theorem State.send_of_gone (h : s.reply = .gone) (v : Int) : s.send v = s.offered := by
  simp only [send, h]

section io
variable {v : Int}

/-- `io.output` returns for the pending value: it is sent. -/
theorem deliver_of_not_blocked (hf : s.fault = none) (hs : s.status = .waitingToOutput v)
    (hr : s.reply ≠ .blocked) :
    deliver v s = .next (((s.send v).setStatus .running).setResponse (.value v)) := by
  rw [deliver, cmdOutput_ok hf hs, send_eq]
  split
  · next hb => exact absurd hb hr
  all_goals exact congrArg _ (send_eq _ v)

theorem deliver_of_blocked (hf : s.fault = none) (hs : s.status = .waitingToOutput v)
    (hr : s.reply = .blocked) :
    deliver v s = .next ((((s.setStatus .running).setResponse (.value v)).offered.setSending
      (some v)).setResponse .blocked) := by
  simp only [deliver, hr, cmdOutput_ok hf hs, mapNext]

theorem handOver_of_not_blocked (hr : s.reply ≠ .blocked) :
    handOver v s = done ((s.send v).setSending none) := by
  unfold handOver
  split
  · next hb => exact absurd hb hr
  all_goals rfl

theorem handOver_of_blocked (hr : s.reply = .blocked) : handOver v s = wait s.offered := by
  simp only [handOver, hr]

end io

section driven

variable (hf : s.fault = none) (hh : s.host = [])
include hf hh

/-- The host has left the core to its driver: a step is a turn of the loop. -/
theorem step_eq_turn : step s = turn s := by
  simp only [step, hostTurn, hh, drive, hf]

theorem step_of_running (hs : s.status = .running) (hn : s.sending = none) :
    step s = cmdStep s := by
  rw [step_eq_turn hf hh]
  simp only [turn, hs, hn]

theorem step_of_underWay {v : Int} (hs : s.status = .running) (hv : s.sending = some v) :
    step s = handOver v s := by
  rw [step_eq_turn hf hh]
  simp only [turn, hs, hv]

theorem step_of_supplied {v : Int} {vs : List Int} (hs : s.status = .waitingForInput)
    (hv : s.supply = some (v, vs)) : step s = cmdInput v (s.polled.setInputs vs) := by
  rw [step_eq_turn hf hh]
  simp only [turn, hs, hv]

theorem step_of_pending {v : Int} (hs : s.status = .waitingToOutput v) : step s = deliver v s := by
  rw [step_eq_turn hf hh]
  simp only [turn, hs]

theorem step_of_halted (hs : s.status = .halted) : step s = done s := by
  rw [step_eq_turn hf hh]
  simp only [turn, hs]

end driven

/-- Settles O45: a step is the turn for the state, and the reply of `io.output` decides what becomes of a value. -/
theorem runDrivesTheLoop : Obligations.RunDrivesTheLoop := by
  intro s _ hf hh
  refine ⟨step_of_running hf hh, fun v vs hs hst hin => ?supplied, fun v hs => ?pending,
    fun v hs hv => ?underWay, step_of_halted hf hh⟩
  case supplied => exact step_of_supplied hf hh hs (supply_some.mpr ⟨hst, hin⟩)
  case pending =>
    rw [step_of_pending hf hh hs]
    refine ⟨fun hr => ?ready, fun hr => ?gone, deliver_of_blocked hf hs⟩
    case ready =>
      replace hr : s.reply = .ready := hr
      rw [deliver_of_not_blocked hf hs (by simp [hr]), send_of_ready hr]
      rfl
    case gone =>
      replace hr : s.reply = .gone := hr
      rw [deliver_of_not_blocked hf hs (by simp [hr]), send_of_gone hr]
      rfl
  case underWay =>
    rw [step_of_underWay hf hh hs hv]
    refine ⟨fun hr => ?ready, fun hr => ?gone, handOver_of_blocked⟩
    case ready =>
      replace hr : s.reply = .ready := hr
      rw [handOver_of_not_blocked (by simp [hr]), send_of_ready hr]
      rfl
    case gone =>
      replace hr : s.reply = .gone := hr
      rw [handOver_of_not_blocked (by simp [hr]), send_of_gone hr]
      rfl

end Sys2Proof.Machine
end

section
/-! PROOFS. Construction: it establishes the invariant (R156, R204). -/

namespace Sys2Proof.Machine

/-- An entry after a run of writes is one of those written, or was there before. -/
theorem Memory.mem_setMany {m : Memory} {a : Int} {vs : List Int} {c : Cell} (h : c ∈ m.setMany a vs) :
    c ∈ m ∨ (a ≤ c.1 ∧ c.1 < a + vs.length ∧ c.2 ∈ vs) := by
  induction vs generalizing m a with
  | nil => exact .inl h
  | cons v vs ih =>
    obtain h | ⟨hlo, hhi, hv⟩ := ih h
    · obtain rfl | h := mem_set h
      · exact .inr ⟨le_rfl, by simp, by simp⟩
      · exact .inl h
    · refine .inr ⟨by omega, ?_, .tail _ hv⟩
      rw [List.length_cons]
      omega

/-- A simple core is constructed from words of the range, as many as addresses of the range can tell apart. -/
theorem simpleOk_construct {words : List Int} (hn : (words.length : Int) ≤ Word.max32)
    (hw : ∀ w ∈ words, Word.fits w = true) : (construct .simple words).SimpleOk where
  size := hn
  pcFits := rfl
  rbZero := rfl
  twoStates := .inl rfl
  noneUnderWay := rfl
  cells c hc := by
    obtain hc | ⟨hlo, hhi, hv⟩ := Memory.mem_setMany hc
    · cases hc
    · exact ⟨hlo, by rwa [zero_add] at hhi, hw _ hv⟩

/-- Settles O50: memory is written word by word from an empty one, and a constructed core is running. -/
theorem constructionMeetsTheInvariant : Obligations.ConstructionMeetsTheInvariant := by
  intro v words h
  exact
    { canonical := Memory.wf_setMany 0 words Memory.wf_nil
      simple := by
        rintro rfl
        obtain ⟨hn, hw⟩ := h rfl
        exact simpleOk_construct hn hw
      pending := fun hs => by cases hs }

end Sys2Proof.Machine
end

section
/-! PROOFS. Refinement: the advanced variant against the simple one, from the same state (R155). What the simple
variant reads, resolves and fetches, the advanced one does too, so each instruction that completes has the same
effect, IN and OUT in two commands. -/

namespace Sys2Proof.Machine

open State

variable {s t : State}

/-! ## What the advanced variant reads -/

theorem State.hasAddress_asAdvanced (s : State) (a : Int) : s.asAdvanced.hasAddress a = true :=
  hasAddress_advanced rfl a

theorem State.memRead_asAdvanced {a v : Int} (h : s.memRead a = .ok v) :
    s.asAdvanced.memRead a = .ok v :=
  memRead_ok.mpr ⟨s.hasAddress_asAdvanced a, (memRead_ok.mp h).2⟩

theorem State.checkAddress_asAdvanced {a d : Int} (h : s.checkAddress a = .ok d) :
    s.asAdvanced.checkAddress a = .ok d :=
  checkAddress_ok.mpr ⟨s.hasAddress_asAdvanced a, (checkAddress_ok.mp h).2⟩

theorem State.resolveRead_asAdvanced {p : Param} {v : Int} (h : s.resolveRead p = .ok v) :
    s.asAdvanced.resolveRead p = .ok v := by
  obtain ⟨m, w⟩ := p
  cases m with
  | position => exact memRead_asAdvanced h
  | immediate => exact h
  | reserved k => cases h
  | relative =>
    cases hv : s.variant with
    | simple => rw [(resolve_of_not_existsIn (m := .relative) (by rw [hv]; rfl) w).1] at h; cases h
    | advanced => exact memRead_asAdvanced (resolveRead_relative hv w ▸ h)

theorem State.resolveWrite_asAdvanced {p : Param} {d : Int} (h : s.resolveWrite p = .ok d) :
    s.asAdvanced.resolveWrite p = .ok d := by
  obtain ⟨m, w⟩ := p
  cases m with
  | position => exact checkAddress_asAdvanced h
  | immediate => cases h
  | reserved k => cases h
  | relative =>
    cases hv : s.variant with
    | simple => rw [(resolve_of_not_existsIn (m := .relative) (by rw [hv]; rfl) w).2] at h; cases h
    | advanced => exact checkAddress_asAdvanced (resolveWrite_relative hv w ▸ h)

/-- Where all the words asked for exist, the advanced variant reads the same. -/
theorem State.readWords_asAdvanced {a : Int} {k : Nat} (h : (s.readWords a k).length = k) :
    s.asAdvanced.readWords a k = s.readWords a k := by
  induction k generalizing a with
  | zero => rfl
  | succ k ih =>
    cases hw : s.memRead a with
    | error c => simp [readWords, hw] at h
    | ok w =>
      simp only [readWords, hw, List.length_cons, Nat.add_right_cancel_iff] at h
      simp only [readWords, hw, memRead_asAdvanced hw, ih h]

/-- Every operation of the simple variant is one of the advanced variant, with the same opcode. -/
theorem opOf_advanced {v : Variant} {opcode : Int} {o : Op} (h : opOf v opcode = some o) :
    opOf .advanced opcode = some o := by
  obtain ⟨-, hc⟩ := opOf_some_iff.mp h
  exact opOf_some_iff.mpr ⟨by cases o <;> rfl, hc⟩

theorem State.fetch_asAdvanced {i : Instr} (h : s.fetch = .ok i) : s.asAdvanced.fetch = .ok i := by
  obtain ⟨iw, o, hiw, ho, hb⟩ := fetch_ok h
  have complete : (s.readWords (s.pc + 1) o.arity).length = o.arity :=
    (length_paramsOf (s.length_paramWords_le o)).symm.trans (exists_build_iff.mp ⟨i, hb⟩)
  refine fetch_of_words (memRead_asAdvanced hiw) (opOf_advanced ho) ?_
  rw [show s.asAdvanced.pc = s.pc from rfl, readWords_asAdvanced complete, hb]

theorem Ready.asAdvanced (h : Ready s) : Ready s.asAdvanced := { h with }

/-! ## Instructions -/

/-- An instruction without input and output that completes does the same in the advanced variant. -/
theorem Effect.exec_asAdvanced {i : Instr} (h : Effect i s t) (hin : ∀ dst, i ≠ .inp dst)
    (hout : ∀ a, i ≠ .out a) : exec i s.asAdvanced = .next t.asAdvanced := by
  cases i with
  | add a b dst =>
    obtain ⟨x, y, d, hx, hy, hd, -, rfl⟩ := h
    exact ((addFollowsItsRule s.asAdvanced a b dst).1 x y d (resolveRead_asAdvanced hx)
      (resolveRead_asAdvanced hy) (resolveWrite_asAdvanced hd)).1 (.inl rfl)
  | mul a b dst =>
    obtain ⟨x, y, d, hx, hy, hd, -, rfl⟩ := h
    exact ((mulFollowsItsRule s.asAdvanced a b dst).1 x y d (resolveRead_asAdvanced hx)
      (resolveRead_asAdvanced hy) (resolveWrite_asAdvanced hd)).1 (.inl rfl)
  | lt a b dst =>
    obtain ⟨x, y, d, hx, hy, hd, rfl⟩ := h
    rw [boolWord_decide]
    exact (ltFollowsItsRule s.asAdvanced a b dst).1 x y d (resolveRead_asAdvanced hx)
      (resolveRead_asAdvanced hy) (resolveWrite_asAdvanced hd)
  | eq a b dst =>
    obtain ⟨x, y, d, hx, hy, hd, rfl⟩ := h
    rw [boolWord_decide]
    exact (eqFollowsItsRule s.asAdvanced a b dst).1 x y d (resolveRead_asAdvanced hx)
      (resolveRead_asAdvanced hy) (resolveWrite_asAdvanced hd)
  | inp dst => exact absurd rfl (hin dst)
  | out a => exact absurd rfl (hout a)
  | jt a b =>
    obtain ⟨x, y, hx, hy, rfl⟩ := h
    obtain ⟨taken, passed⟩ := (jtFollowsItsRule s.asAdvanced a b).1 x y (resolveRead_asAdvanced hx)
      (resolveRead_asAdvanced hy)
    split
    · next hz => exact taken hz
    · next hz => exact passed (not_not.mp hz)
  | jf a b =>
    obtain ⟨x, y, hx, hy, rfl⟩ := h
    obtain ⟨taken, passed⟩ := (jfFollowsItsRule s.asAdvanced a b).1 x y (resolveRead_asAdvanced hx)
      (resolveRead_asAdvanced hy)
    split
    · next hz => exact taken hz
    · next hz => exact passed hz
  | arb a =>
    obtain ⟨-, x, hx, rfl⟩ := h
    exact (arbFollowsItsRule s.asAdvanced a).1 rfl x (resolveRead_asAdvanced hx)
  | halt =>
    obtain rfl := h
    exact haltFollowsItsRule.1 s.asAdvanced

theorem Ready.step_eq_execOne (h : Ready s) : step s = execOne s :=
  (step_of_running h.fault h.host h.status h.sending).trans (cmdStep_ok h.fault h.status)

theorem Ready.step_asAdvanced (h : Ready s) {i : Instr} (hi : s.fetch = .ok i) :
    step s.asAdvanced = exec i s.asAdvanced :=
  h.asAdvanced.step_eq_execOne.trans (execOne_of_fetch (fetch_asAdvanced hi))

/-- A step that leaves no fault has fetched an instruction and had its effect. -/
theorem Ready.effect_of_step (h : Ready s) (hs : step s = .next t) (hf : t.fault = none) :
    ∃ i, s.fetch = .ok i ∧ Effect i s t := by
  rw [h.step_eq_execOne] at hs
  unfold execOne at hs
  split at hs
  · simp [raise_next.mp hs] at hf
  · next i hi =>
    obtain ⟨c, rfl⟩ | he := exec_next hs
    · simp at hf
    · exact ⟨i, hi, he⟩

/-- What a simple core does in one command the advanced one does in two: it suspends, and the second command
leaves the same state but for `PEND_DST` and the response. -/
def DoesInTwo (s t : State) : Prop :=
  ∃ u, step s.asAdvanced = .next u ∧
    ∃ d r, step u = .next { t.asAdvanced with pendDst := d, response := r }

/-- Inside IN, the destination latched: what part one leaves (R110). -/
def State.insideIn (s : State) (d : Int) : State :=
  ((s.setPendDst d).setStatus .waitingForInput).setResponse .ok

/-- Inside OUT, the value pending (R112). -/
def State.insideOut (s : State) (v : Int) : State :=
  ((s.advance 2).setStatus (.waitingToOutput v)).setResponse .ok

/-- IN: the destination is latched, and then receives the first value supplied (R110, R154). -/
theorem Ready.in_doesInTwo (h : Ready s) {dst : Param} {d v : Int} {vs : List Int}
    (hi : s.fetch = .ok (.inp dst)) (hd : s.resolveWrite dst = .ok d) (hv : s.supply = some (v, vs)) :
    DoesInTwo s ((s.polled.setInputs vs).stored d v 2) := by
  have suspends : exec (.inp dst) s.asAdvanced = .next (s.asAdvanced.insideIn d) :=
    (inSuspendsAndResumes s.asAdvanced rfl).1 dst d (resolveWrite_asAdvanced hd)
  have asks := step_of_supplied (s := s.asAdvanced.insideIn d) h.fault h.host rfl hv
  have resumes := cmdInput_ok (s := (s.asAdvanced.insideIn d).polled.setInputs vs) h.fault rfl
    (hasAddress_advanced rfl _) v
  refine ⟨_, (h.step_asAdvanced hi).trans suspends, d, .ok, asks.trans (resumes.trans ?_)⟩
  simp only [← h.status]
  rfl

/-- OUT: the value becomes pending, and `io.output` then returns for it (R112, R154). -/
theorem Ready.out_doesInTwo (h : Ready s) {a : Param} {v : Int}
    (hi : s.fetch = .ok (.out a)) (ha : s.resolveRead a = .ok v) (hr : s.reply ≠ .blocked) :
    DoesInTwo s (((s.send v).advance 2).setResponse .ok) := by
  have suspends : exec (.out a) s.asAdvanced = .next (s.asAdvanced.insideOut v) :=
    (outSuspendsAndDelivers s.asAdvanced rfl).1 a v (resolveRead_asAdvanced ha)
  have takes := step_of_pending (s := s.asAdvanced.insideOut v) h.fault h.host rfl
  have sends := deliver_of_not_blocked (s := s.asAdvanced.insideOut v) h.fault rfl hr
  refine ⟨_, (h.step_asAdvanced hi).trans suspends, s.pendDst, .value v, takes.trans (sends.trans ?_)⟩
  rw [send_eq, send_eq]
  simp only [← h.status]
  rfl

/-- Settles O52, by cases on the instruction that the simple core completes: IN and OUT take two commands, every
other instruction takes one. -/
theorem advancedRefinesSimple : Obligations.AdvancedRefinesSimple := by
  intro s t hv hready h hfault hblocked
  obtain ⟨i, hi, he⟩ := hready.effect_of_step h hfault
  have suspended (hd : DoesInTwo s t) : ∃ u, step s.asAdvanced = .next u ∧
      (u = t.asAdvanced ∨ ∃ d r, step u = .next { t.asAdvanced with pendDst := d, response := r }) := by
    obtain ⟨u, hu, hd⟩ := hd
    exact ⟨u, hu, .inr hd⟩
  cases i with
  | inp dst =>
    obtain ⟨d, hd, ⟨ha, -⟩ | ⟨-, -, rfl⟩ | ⟨v, vs, -, hsup, -, rfl⟩⟩ := he
    · simp [hv] at ha
    · simp at hblocked
    · exact suspended (hready.in_doesInTwo hi hd hsup)
  | out a =>
    obtain ⟨v, hval, ⟨ha, -⟩ | ⟨-, -, rfl⟩ | ⟨-, hr, rfl⟩⟩ := he
    · simp [hv] at ha
    · simp at hblocked
    · exact suspended (hready.out_doesInTwo hi hval hr)
  | _ => exact ⟨_, (hready.step_asAdvanced hi).trans (he.exec_asAdvanced (by simp) (by simp)), .inl rfl⟩

end Sys2Proof.Machine
end

section
/-! PROOFS. Several cores: a host's command is a change of one entry of the list (R161, R164). -/

namespace Sys2Proof.Machine

variable {s : State}

/-- A core after its transition, or as it is where it has none. -/
def moved (s : State) : State :=
  match step s with
  | .next t => t
  | .fault _ | .refused _ => s

theorem moved_of_next {t : State} (h : step s = .next t) : moved s = t := by
  simp only [moved, h]

theorem moved_of_not_next (h : ∀ t, step s ≠ .next t) : moved s = s := by
  unfold moved
  split
  · next t ht => exact absurd ht (h t)
  all_goals rfl

namespace Fleet

theorem act_of_getElem? {f : List State} {k : Nat} (h : f[k]? = some s) :
    act f k = f.set k (moved s) := by
  obtain ⟨hlt, rfl⟩ := List.getElem?_eq_some_iff.mp h
  simp only [act, h]
  split
  · next t ht => rw [moved_of_next ht]
  all_goals
    next hr => rw [moved_of_not_next (by simp [step, hr]), List.set_getElem_self]

/-- A command moves the entry of its index and no other. -/
theorem act_eq_modify (f : List State) (k : Nat) : act f k = f.modify k moved := by
  rw [List.modify_eq_set_getElem?]
  cases hk : f[k]? with
  | none =>
    simp only [act, hk]
    rfl
  | some s => exact act_of_getElem? hk

theorem getElem?_act_self {f : List State} {k : Nat} (h : f[k]? = some s) :
    (act f k)[k]? = some (moved s) := by
  rw [act_eq_modify, List.getElem?_modify_eq, h]
  rfl

/-- Settles O58: changes of two entries of a list commute. -/
theorem commandsToTwoInstancesCommute : Obligations.CommandsToTwoInstancesCommute := by
  refine ⟨fun f k => ⟨fun i hi => ?others, fun s t hk ht => ?moves, fun s hk hn => ?stays, ?length,
    fun s hk => ?clones, fun hk => ?noClone⟩, fun f j k hjk => ?commute⟩
  case others => rw [act_eq_modify, List.getElem?_modify_ne _ _ hi.symm]
  case moves => rw [getElem?_act_self hk, moved_of_next ht]
  case stays => rw [getElem?_act_self hk, moved_of_not_next hn]
  case length => rw [act_eq_modify, List.length_modify]
  case clones => simp only [cloneAt, hk, clone]
  case noClone => simp only [cloneAt, hk]
  case commute => simp only [act_eq_modify, List.modify_modify_ne _ _ f hjk]

end Fleet

end Sys2Proof.Machine
end

section
/-! PROOFS. Faults: what the fault entry records, and what a step that records a fault leaves (R174, R175,
R181). -/

namespace Sys2Proof.Machine

variable {d : Prop} {s t : State} {i : Instr}

/-- Settles O29: the fault entry is the next state, and `FAULT` and the response are all that it changes. -/
theorem faultEntry : Obligations.FaultEntry := by
  intro s c
  refine ⟨rfl, State.enterFault_response s c, fun hf => ?first, fun old hf => ?sticky,
    untouched_enterFault s c⟩
  case first => rw [State.enterFault_fault, hf, Option.getD_none]
  case sticky => rw [State.enterFault_fault, hf, Option.getD_some]

/-- What a fault records, and all that it leaves (R174, R175). -/
def Faults (s t : State) : Prop :=
  Untouched s t ∧ ∃ c, t.fault = some (s.fault.getD c) ∧ t.response = .error c

theorem Change.fault (h : Change i s t) : t.fault = s.fault := by
  cases h <;> simp

/-- A move that is no fault entry leaves `FAULT` as it was. -/
theorem Move.fault (h : Move d s t) : t.fault = s.fault ∨ Faults s t := by
  cases h with
  | executes i t hf hs hi he => exact .inl he.change.fault
  | faults c => exact .inr ⟨untouched_enterFault s c, c, by simp⟩
  | receiveFaults v vs c =>
    exact .inr ⟨{ untouched_enterFault (s.polled.setInputs vs) c with }, c, by simp⟩
  | _ => simp

/-- Settles O30: the step is a fault entry, which keeps a fault recorded before. -/
theorem faultsArePrecise : Obligations.FaultsArePrecise := by
  intro s t h hne
  obtain ⟨u, l, hm, rfl⟩ := step_move h
  obtain ⟨hu, c, hf, hr⟩ := hm.fault.resolve_left hne
  cases hs : s.fault with
  | some old => exact absurd (by rw [State.setHost_fault, hf, hs, Option.getD_some]) hne
  | none => exact ⟨{ hu with }, rfl, c, by rw [State.setHost_fault, hf, hs, Option.getD_none], hr⟩

end Sys2Proof.Machine
end

section
/-! PROOFS. Waits: an attempt at the I/O capability that does not return changes nothing but its own record
(R184, R188). -/

namespace Sys2Proof.Machine

variable {s : State}

/-- `get_input` does not return: only the attempt is recorded. -/
theorem step_of_not_supplied (hf : s.fault = none) (hh : s.host = []) (hs : s.status = .waitingForInput)
    (hv : s.supply = none) : step s = wait s.polled := by
  rw [step_eq_turn hf hh]
  simp only [turn, hs, hv]

/-- Settles O44: in both cases the turn waits, at `get_input` or at `io.output`. -/
theorem waitingChangesNothing : Obligations.WaitingChangesNothing := by
  intro s hf hh
  refine ⟨fun hs hv => ?input, fun v hs hv hr => ?output⟩
  case input => exact step_of_not_supplied hf hh hs (State.supply_none.mpr hv)
  case output => exact (step_of_underWay hf hh hs hv).trans (handOver_of_blocked hr)

end Sys2Proof.Machine
end

section
/-! PROOFS. Host access: the host writes memory before the first command only (R205). -/

namespace Sys2Proof.Machine

open State

variable {s : State} {x v : Int}

theorem State.untouched_iff :
    s.untouched = true ↔ s.response = .noCommand ∧ s.fault = none ∧ s.status = .running := by
  simp [untouched, and_assoc]

theorem hostWrite_of_untouched (hu : s.untouched = true) (hw : s.isWord v = true)
    (ha : s.hasAddress x = true) : hostWrite x v s = .next (s.setMem (s.mem.set x v)) := by
  simp [hostWrite, hu, hw, memWrite_ok.mpr ⟨ha, rfl⟩]

theorem hostWrite_of_not_untouched (hu : ¬ s.untouched = true) :
    hostWrite x v s = .refused .lateHostWrite := by
  simp [hostWrite, hu]

theorem State.hostRead_setMem_set_same (ha : s.hasAddress x = true) :
    (s.setMem (s.mem.set x v)).hostRead x = some v := by
  simp only [hostRead, hasAddress_setMem, ha, if_true, setMem_mem, Memory.get_set_same]

theorem State.hostRead_setMem_set_ne {y : Int} (hy : y ≠ x) :
    (s.setMem (s.mem.set x v)).hostRead y = s.hostRead y := by
  simp only [hostRead, hasAddress_setMem, setMem_mem, Memory.get_set_ne s.mem v hy]

/-- The write meets the bounds and the range that the simple variant sets; the advanced one sets none. -/
theorem State.isWord_and_hasAddress_of_simple
    (h : s.variant = .simple → (0 ≤ x ∧ x < (s.n : Int)) ∧ Word.fits v = true) :
    s.isWord v = true ∧ s.hasAddress x = true := by
  cases hv : s.variant with
  | advanced => exact ⟨isWord_advanced hv v, hasAddress_advanced hv x⟩
  | simple =>
    obtain ⟨hx, hw⟩ := h hv
    exact ⟨(isWord_simple hv v).trans hw, (hasAddress_simple hv x).mpr hx⟩

/-- Settles O43: a legal write of an untouched core stores the word, and a core that has answered a command is
not untouched. -/
theorem hostAccessToMemory : Obligations.HostAccessToMemory := by
  intro s x v rest hh
  have hstep : step s = mapNext (fun t => t.setHost rest) (hostWrite x v s) := by
    simp only [step, hostTurn, hh]
  refine ⟨fun hr hf hs hok => ?early, fun hr => ?late⟩
  case early =>
    obtain ⟨hw, ha⟩ := isWord_and_hasAddress_of_simple hok
    rw [hstep, hostWrite_of_untouched (untouched_iff.mpr ⟨hr, hf, hs⟩) hw ha]
    exact ⟨_, rfl, rfl, hostRead_setMem_set_same ha, fun y => hostRead_setMem_set_ne (s := s)⟩
  case late =>
    rw [hstep, hostWrite_of_not_untouched fun hu => hr (untouched_iff.mp hu).1]
    rfl

end Sys2Proof.Machine
end

section
/-! PROOFS. Tokens: which texts are tokens, what value they have, and when a text loads (R202 to R204). -/

namespace Sys2Proof.Machine.Loader

/-! ## Surrounding white space -/

/-- Only white space. -/
def Blank (t : List Char) : Prop := ∀ c ∈ t, isSpace c = true

theorem Blank.reverse {t : List Char} (h : Blank t) : Blank t.reverse :=
  fun c hc => h c (List.mem_reverse.mp hc)

theorem trimLeft_eq_dropWhile (t : List Char) : trimLeft t = t.dropWhile isSpace := by
  induction t with
  | nil => rfl
  | cons c cs ih => rw [trimLeft, List.dropWhile_cons, ih]

theorem trimLeft_blank_append {pre : List Char} (h : Blank pre) (t : List Char) :
    trimLeft (pre ++ t) = trimLeft t := by
  simp only [trimLeft_eq_dropWhile, List.dropWhile_append_of_pos h]

/-- Trimming at the left leaves trailing white space, unless there is nothing else. -/
theorem trimLeft_append_blank (t : List Char) {post : List Char} (h : Blank post) :
    ∃ post', Blank post' ∧ trimLeft (t ++ post) = trimLeft t ++ post' := by
  simp only [trimLeft_eq_dropWhile, List.dropWhile_append]
  split
  · next hnil =>
    refine ⟨[], by simp [Blank], ?_⟩
    rw [List.dropWhile_eq_nil_iff.mpr h, List.isEmpty_iff.mp hnil, List.append_nil]
  · exact ⟨post, h, rfl⟩

theorem trim_surrounded {pre post : List Char} (hpre : Blank pre) (t : List Char) (hpost : Blank post) :
    trim (pre ++ t ++ post) = trim t := by
  obtain ⟨post', hpost', ht⟩ := trimLeft_append_blank t hpost
  rw [trim, List.append_assoc, trimLeft_blank_append hpre, ht, List.reverse_append,
    trimLeft_blank_append hpost'.reverse, trim]

theorem exists_blank_trimLeft (t : List Char) : ∃ pre, Blank pre ∧ t = pre ++ trimLeft t := by
  refine ⟨t.takeWhile isSpace, fun c => List.mem_takeWhile_imp, ?_⟩
  rw [trimLeft_eq_dropWhile, List.takeWhile_append_dropWhile]

theorem exists_blank_trim (t : List Char) :
    ∃ pre post, Blank pre ∧ Blank post ∧ t = pre ++ trim t ++ post := by
  obtain ⟨pre, hpre, ht⟩ := exists_blank_trimLeft t
  obtain ⟨post, hpost, hr⟩ := exists_blank_trimLeft (trimLeft t).reverse
  refine ⟨pre, post.reverse, hpre, hpost.reverse, ?_⟩
  rw [List.append_assoc, trim, ← List.reverse_append, ← hr, List.reverse_reverse, ← ht]

theorem parseToken_surrounded {pre post : List Char} (hpre : Blank pre) (t : List Char)
    (hpost : Blank post) : parseToken (pre ++ t ++ post) = parseToken t := by
  simp only [parseToken, trim_surrounded hpre t hpost]

/-! ## The value of digits -/

/-- Digits read after a number already read: the number moves up by as many places as there are digits. -/
theorem digitsFrom_eq_decimalValue {ds : List Char} (h : ∀ c ∈ ds, isDigit c = true) (n : Nat) :
    digitsFrom n ds = some (n * 10 ^ ds.length + decimalValue ds) := by
  induction ds generalizing n with
  | nil => simp [digitsFrom, decimalValue]
  | cons c cs ih =>
    obtain ⟨hc, hcs⟩ := List.forall_mem_cons.mp h
    have hv : digitValue c = c.toNat - 48 := rfl
    rw [digitsFrom, if_pos hc, ih hcs, decimalValue, List.length_cons, hv]
    congr 1
    ring

theorem isDigit_of_digitsFrom {ds : List Char} {n k : Nat} (h : digitsFrom n ds = some k) :
    ∀ c ∈ ds, isDigit c = true := by
  induction ds generalizing n with
  | nil => simp
  | cons c cs ih =>
    rw [digitsFrom] at h
    split at h
    · next hc => exact List.forall_mem_cons.mpr ⟨hc, ih h⟩
    · cases h

theorem IsNumeral.digitsFrom {ds : List Char} (h : IsNumeral ds) :
    digitsFrom 0 ds = some (decimalValue ds) := by
  rw [digitsFrom_eq_decimalValue h.2, zero_mul, zero_add]

theorem isNumeral_of_parseDigits {ds : List Char} (h : parseDigits ds ≠ none) : IsNumeral ds := by
  obtain ⟨k, hk⟩ := Option.ne_none_iff_exists'.mp h
  cases ds with
  | nil => cases hk
  | cons c cs => exact ⟨by simp, isDigit_of_digitsFrom hk⟩

/-- A text that is a token is, trimmed, a numeral with or without a `-`. -/
theorem trim_of_parseToken {t : List Char} (h : (parseToken t).isSome = true) :
    ∃ ds, IsNumeral ds ∧ (trim t = ds ∨ trim t = '-' :: ds) := by
  unfold parseToken at h
  split at h
  · next ds hd => exact ⟨ds, isNumeral_of_parseDigits fun hn => by simp [hn] at h, .inr hd⟩
  · exact ⟨trim t, isNumeral_of_parseDigits fun hn => by simp [hn] at h, .inl rfl⟩

/-- A numeral, with or without a `-`, is a token whatever white space surrounds it. -/
theorem parseToken_surrounded_numeral {pre ds post : List Char} (hds : IsNumeral ds) (hpre : Blank pre)
    (hpost : Blank post) :
    parseToken (pre ++ ds ++ post) = some (decimalValue ds : Int) ∧
      parseToken (pre ++ ('-' :: ds) ++ post) = some (-(decimalValue ds : Int)) := by
  rw [parseToken_surrounded hpre _ hpost, parseToken_surrounded hpre _ hpost]
  exact ⟨parseToken_numeral hds hds.digitsFrom, parseToken_neg_numeral hds hds.digitsFrom⟩

/-- Settles O56: trimming takes off the surrounding white space and nothing else, and the digits are read from
the most significant one. -/
theorem tokenGrammar : Obligations.TokenGrammar := by
  refine ⟨fun t => ⟨fun h => ?shape, ?token⟩,
    fun pre ds post hne hds hpre hpost => parseToken_surrounded_numeral ⟨hne, hds⟩ hpre hpost⟩
  case shape =>
    obtain ⟨pre, post, hpre, hpost, ht⟩ := exists_blank_trim t
    obtain ⟨ds, ⟨hne, hds⟩, hbody⟩ := trim_of_parseToken h
    exact ⟨pre, trim t, post, ht, hpre, hpost, ds, hne, hds, hbody⟩
  case token =>
    rintro ⟨pre, body, post, rfl, hpre, hpost, ds, hne, hds, rfl | rfl⟩
    all_goals obtain ⟨hplain, hneg⟩ := parseToken_surrounded_numeral ⟨hne, hds⟩ hpre hpost
    · rw [hplain, Option.isSome_some]
    · rw [hneg, Option.isSome_some]

/-! ## The pieces of a text -/

theorem splitCommas_of_ne_comma {c : Char} (h : c ≠ ',') (t : List Char) :
    ∃ u us, splitCommas t = u :: us ∧ splitCommas (c :: t) = (c :: u) :: us := by
  obtain ⟨u, us, hu⟩ := List.exists_cons_of_ne_nil (splitCommas_ne_nil t)
  exact ⟨u, us, hu, splitCommas_append (t := [c]) (by simpa using h) hu⟩

/-- The pieces with commas between them are the text again. -/
theorem intercalate_splitCommas (t : List Char) : List.intercalate [','] (splitCommas t) = t := by
  induction t with
  | nil => rfl
  | cons c t ih =>
    by_cases hc : c = ','
    · subst hc
      rw [splitCommas_comma, List.intercalate_cons_of_ne_nil (splitCommas_ne_nil t), ih]
      rfl
    · obtain ⟨u, us, hu, hcu⟩ := splitCommas_of_ne_comma hc t
      rw [hu] at ih
      rw [hcu, ← ih]
      cases us with
      | nil => simp only [List.intercalate_singleton]
      | cons u' us => simp only [List.intercalate_cons_cons, List.cons_append]

theorem comma_not_mem_of_mem_splitCommas {t tok : List Char} (h : tok ∈ splitCommas t) : ',' ∉ tok := by
  induction t generalizing tok with
  | nil => simp_all [splitCommas]
  | cons c t ih =>
    by_cases hc : c = ','
    · subst hc
      rw [splitCommas_comma] at h
      obtain rfl | h := List.mem_cons.mp h
      · exact List.not_mem_nil
      · exact ih h
    · obtain ⟨u, us, hu, hcu⟩ := splitCommas_of_ne_comma hc t
      rw [hcu] at h
      rw [hu] at ih
      obtain rfl | h := List.mem_cons.mp h
      · simpa [Ne.symm hc] using ih List.mem_cons_self
      · exact ih (List.mem_cons_of_mem u h)

/-! ## Loading -/

/-- A token that no load accepts: malformed, or out of the variant's range (R203, R204). -/
def BadToken (v : Variant) (tok : List Char) : Prop := ∀ w, parseToken tok = some w → accepts v w = false

theorem badToken_or_good (v : Variant) (tok : List Char) :
    BadToken v tok ∨ ∃ w, parseToken tok = some w ∧ accepts v w = true := by
  by_cases h : ∃ w, parseToken tok = some w ∧ accepts v w = true
  · exact .inr h
  · exact .inl fun w hw => by simpa using fun ha => h ⟨w, hw, ha⟩

/-- The words are the values of the tokens, in order, and the variant accepts them all. -/
def ValuesOf (v : Variant) (toks : List (List Char)) (words : List Int) : Prop :=
  words.map some = toks.map parseToken ∧ ∀ w ∈ words, accepts v w = true

theorem ValuesOf.no_badToken {v : Variant} {toks : List (List Char)} {words : List Int}
    (h : ValuesOf v toks words) : ¬ ∃ tok ∈ toks, BadToken v tok := by
  rintro ⟨tok, htok, hbad⟩
  obtain ⟨hmap, hacc⟩ := h
  obtain ⟨w, hw, hval⟩ := List.mem_map.mp (hmap ▸ List.mem_map_of_mem htok)
  exact absurd (hacc w hw) (by simp [hbad w hval.symm])

/-- A load of tokens fails at a bad one, or there is none and it gives their values. -/
theorem parseTokens_cases (v : Variant) (toks : List (List Char)) :
    (parseTokens v toks = .error .parseError ∧ ∃ tok ∈ toks, BadToken v tok) ∨
      ∃ words, parseTokens v toks = .ok words ∧ ValuesOf v toks words := by
  induction toks with
  | nil => exact .inr ⟨[], rfl, rfl, by simp⟩
  | cons tok toks ih =>
    obtain hbad | ⟨w, hw, hacc⟩ := badToken_or_good v tok
    · refine .inl ⟨?_, tok, List.mem_cons_self, hbad⟩
      cases hw : parseToken tok with
      | none => simp only [parseTokens, hw]
      | some w => simp only [parseTokens, hw, hbad w hw, Bool.false_eq_true, if_false]
    · obtain ⟨herr, tok', htok', hbad⟩ | ⟨words, hok, hmap, hall⟩ := ih
      · refine .inl ⟨?_, tok', List.mem_cons_of_mem _ htok', hbad⟩
        simp only [parseTokens, hw, hacc, if_true, herr]
      · refine .inr ⟨w :: words, ?_, ?_, List.forall_mem_cons.mpr ⟨hacc, hall⟩⟩
        · simp only [parseTokens, hw, hacc, if_true, hok]
        · rw [List.map_cons, List.map_cons, hmap, hw]

/-- Settles O57: the two ways a load can end exclude each other. -/
theorem loadFailsOnBadTokens : Obligations.LoadFailsOnBadTokens := by
  intro v text
  refine ⟨⟨splitCommas_ne_nil text, intercalate_splitCommas text,
    fun tok => comma_not_mem_of_mem_splitCommas⟩, ?_⟩
  unfold parse
  obtain ⟨herr, hbad⟩ | ⟨words, hok, hvalues⟩ := parseTokens_cases v (splitCommas text)
  · rw [herr]
    exact ⟨iff_of_true rfl hbad, fun c hc => (Except.error.inj hc).symm, fun words hw => nomatch hw⟩
  · rw [hok]
    refine ⟨iff_of_false nofun hvalues.no_badToken, nofun, fun words' hw => ?_⟩
    obtain rfl := Except.ok.inj hw
    exact hvalues

end Sys2Proof.Machine.Loader
end

section
/-! PROOFS. Reset: what construction leaves in every register and at every address (R200). -/

namespace Sys2Proof.Machine

namespace Memory

/-- A run of writes leaves the addresses outside it alone. -/
theorem get_setMany_outside {m : Memory} {a x : Int} {vs : List Int} (h : x < a ∨ a + vs.length ≤ x) :
    (m.setMany a vs).get x = m.get x := by
  induction vs generalizing m a with
  | nil => rfl
  | cons v vs ih =>
    rw [List.length_cons] at h
    rw [setMany, ih (by omega), get_set_ne m v (by omega)]

/-- Word `i` of a run of writes stands `i` addresses after the first. -/
theorem get_setMany_getElem? {m : Memory} {a w : Int} {vs : List Int} {i : Nat} (h : vs[i]? = some w) :
    (m.setMany a vs).get (a + i) = w := by
  induction vs generalizing m a i with
  | nil => simp at h
  | cons v vs ih =>
    rw [setMany]
    cases i with
    | zero =>
      obtain rfl : v = w := by simpa using h
      rw [get_setMany_outside (by omega), Nat.cast_zero, add_zero, get_set_same]
    | succ i =>
      rw [List.getElem?_cons_succ] at h
      rw [Nat.cast_succ, add_comm (i : Int), ← add_assoc, ih h]

end Memory

/-- The addresses that exist after construction: all of them, or those of the words (R30, R44, R50). -/
theorem hasAddress_construct (v : Variant) (words : List Int) (x : Int) :
    (construct v words).hasAddress x = true ↔ v = .advanced ∨ (0 ≤ x ∧ x < (words.length : Int)) := by
  cases v with
  | advanced => exact iff_of_true (State.hasAddress_advanced rfl x) (.inl rfl)
  | simple => exact (State.hasAddress_simple rfl x).trans (or_iff_right (by simp)).symm

/-- Settles O48: memory is written word by word from address 0 of an empty one. -/
theorem constructionLeaves : Obligations.ConstructionLeaves := by
  intro v words s
  refine ⟨rfl, rfl, rfl, rfl, rfl, fun i w hi => ?word, fun x hx => ⟨fun hv => ?unset, fun hv => ?outside⟩,
    fun hv => ?size⟩
  case word =>
    obtain ⟨hlt, -⟩ := List.getElem?_eq_some_iff.mp hi
    refine State.memRead_ok.mpr ⟨(hasAddress_construct v words i).mpr (.inr (by omega)), ?_⟩
    have hget := Memory.get_setMany_getElem? (m := []) (a := 0) hi
    rw [zero_add] at hget
    exact hget.symm
  case unset =>
    refine State.memRead_ok.mpr ⟨(hasAddress_construct v words x).mpr (.inl hv), ?_⟩
    exact (Memory.get_setMany_outside (m := []) (a := 0) (by omega)).symm
  case outside =>
    refine State.memRead_error.mpr ⟨?_, rfl⟩
    rw [← Bool.not_eq_true, hasAddress_construct, hv]
    rintro (hadv | hin)
    · cases hadv
    · omega
  case size => subst hv; rfl

theorem reset_eq_construct : State.reset = construct .advanced [] := rfl

/-- Settles O49: construction of an advanced core meets the invariant whatever the words are. -/
theorem resetMeetsTheInvariant : Obligations.ResetMeetsTheInvariant := by
  refine ⟨reset_eq_construct, ?_⟩
  rw [reset_eq_construct]
  exact constructionMeetsTheInvariant .advanced [] (by simp)

end Sys2Proof.Machine
end

section
/-! PROOFS. The pipeline: a worker's turn is a turn of its own core, and what that sends goes to its consumer
(R190 to R194). -/

namespace Sys2Proof.Machine

variable {s t : State}

/-- A turn only adds to the values that the core has delivered, and `sent` is what it adds. -/
theorem outputs_of_drive (h : drive s = .next t) : t.outputs = s.outputs ++ Pipeline.sent s t := by
  unfold Pipeline.sent
  obtain ho | ⟨v, ho, -⟩ := (drive_move trivial h).emits
  · rw [ho, List.drop_length, List.append_nil]
  · rw [ho, List.drop_left]

namespace Pipeline

theorem length_feed (stages : List State) (c : Option Nat) (vs : List Int) :
    (feed stages c vs).length = stages.length := by
  unfold feed
  split
  · rfl
  · split
    · rfl
    · exact List.length_set

/-- The consumer receives the values, and every other stage is left as it is. -/
theorem getElem?_feed {stages : List State} {j : Nat} (h : stages[j]? = some s) (c : Option Nat)
    (vs : List Int) : (feed stages c vs)[j]? = some (if c = some j then receive s vs else s) := by
  obtain ⟨hlt, -⟩ := List.getElem?_eq_some_iff.mp h
  unfold feed
  split
  · simpa using h
  · next i =>
    by_cases hij : i = j
    · subst hij
      simp only [h, if_true, List.getElem?_set_self hlt]
    · have hne : some i ≠ some j := fun e => hij (Option.some.inj e)
      rw [if_neg hne]
      split
      · exact h
      · rw [List.getElem?_set_ne hij, h]

section consumer
variable {p : Pipeline} {k : Nat}

theorem consumerOf_of_lt (h : k + 1 < p.stages.length) : p.consumerOf k = some (k + 1) := if_pos h

theorem consumerOf_last (h : k + 1 = p.stages.length) :
    p.consumerOf k = if p.ring = true then some 0 else none := if_neg (by omega)

end consumer

section work
variable {p : Pipeline} {k : Nat}

theorem work_of_no_stage (h : p.stages[k]? = none) : p.work k = p := by
  simp only [work, h]

theorem work_of_next (hs : p.stages[k]? = some s) (ht : drive s = .next t) : p.work k =
    { p with
      stages := feed (p.stages.set k t) (p.consumerOf k) (sent s t)
      terminal := if k + 1 = p.stages.length then p.terminal ++ sent s t else p.terminal } := by
  simp only [work, hs, ht]

theorem work_of_not_next (hs : p.stages[k]? = some s) (h : ∀ t, drive s ≠ .next t) : p.work k = p := by
  simp only [work, hs]
  split
  · next t ht => exact absurd ht (h t)
  all_goals rfl

/-- No turn changes how many stages there are, or whether they form a ring. -/
theorem work_shape (p : Pipeline) (k : Nat) :
    (p.work k).stages.length = p.stages.length ∧ (p.work k).ring = p.ring := by
  cases hs : p.stages[k]? with
  | none => simp only [work_of_no_stage hs, and_self]
  | some s =>
    by_cases h : ∃ t, drive s = .next t
    · obtain ⟨t, ht⟩ := h
      simp only [work_of_next hs ht, length_feed, List.length_set, and_self]
    · simp only [work_of_not_next hs (not_exists.mp h), and_self]

theorem stages_work_of_next (hs : p.stages[k]? = some s) (ht : drive s = .next t) {j : Nat} {r : State}
    (hr : (p.stages.set k t)[j]? = some r) : (p.work k).stages[j]? = some
      (if p.consumerOf k = some j ∧ r.ended = false
        then { r with inputs := r.inputs ++ sent s t } else r) := by
  rw [work_of_next hs ht]
  refine (getElem?_feed hr _ _).trans ?_
  rw [ite_and, receive]
  cases r.ended <;> rfl

end work

/-- Settles O59: the worker's stage takes its next state, and then the consumer receives what was sent. -/
theorem workersShareOnlyChannels : Obligations.WorkersShareOnlyChannels := by
  intro p k
  obtain ⟨hlength, hring⟩ := work_shape p k
  refine ⟨hlength, hring, consumerOf_of_lt, consumerOf_last, work_of_no_stage,
    fun s => work_of_not_next, fun s t hs ht => ⟨outputs_of_drive ht, ?terminal,
      fun j r hr => stages_work_of_next hs ht hr⟩⟩
  case terminal => rw [work_of_next hs ht]

/-- Settles O60: the last stage's consumer in a ring is the first stage, which in a ring of one stage has just
taken its next state. -/
theorem lastStageFeedsBothInARing : Obligations.LastStageFeedsBothInARing := by
  intro p k first s t r hring hlast hfirst hs ht hr
  have hconsumer : p.consumerOf k = some 0 := (consumerOf_last hlast).trans (if_pos hring)
  have hzero : (p.stages.set k t)[0]? = some r := by
    rw [hr, List.getElem?_set]
    split
    · rw [if_pos (by omega)]
    · exact hfirst
  have hstage := stages_work_of_next hs ht hzero
  refine ⟨?terminal, fun he => ?receives, fun he => ?ended⟩
  case terminal => rw [work_of_next hs ht, if_pos hlast]
  case receives => rw [hstage, if_pos ⟨hconsumer, he⟩]
  case ended => rw [hstage, if_neg (by simp [he])]

end Pipeline

end Sys2Proof.Machine
end
